-- ==== Sys2Proof/Word.lean ====
section
/-! DEFINITION. The word types of the core and the readings of a word (00_scope.md R7, R8). -/

namespace Sys2Proof

/-- A byte of memory or of the program image. -/
abbrev Byte := BitVec 8

/-- A word: "a 32-bit bit vector" (R7). Registers, the program counter, memory words, instruction
words and port values are words. `u32` of R8 is `BitVec.toNat`, `s32` is `BitVec.toInt`, `word(k)`
is `BitVec.ofNat 32 k`, and `+w`, `-w`, `*w` are `+`, `-`, `*`. -/
abbrev Word := BitVec 32

/-- A register field of an instruction word: 5 bits, values 0 to 31 (R6, R20). -/
abbrev RegField := BitVec 5

/-- A register index: 0 to 16 (R15). -/
abbrev RegIx := Fin 17

/-- The stack pointer is register 6 (R6, R16). -/
abbrev SP : RegIx := 6

/-- The flags register is register 16 (R6, R16). -/
abbrev F : RegIx := 16

end Sys2Proof
end

