-- ==== Sys2Proof/Config.lean ====
section
/-! DEFINITION. What is fixed for one core: the parameters of 00_scope.md R6. The default values of
the parameters stand in Decode.lean, where a repair can reach them. -/

namespace Sys2Proof

/-- The 22 operations, in the order of the table of 30_encoding.md R66. -/
inductive Op where
  | subi | add | addi | mul | shr | mov | load | store | movi | cmp
  | je | jl | jle | jge | jbe | jmp | call | ret | push | pop | print | read
deriving DecidableEq, Repr

/-- The place of an operation in the table of R66, counted from 0. -/
def Op.index : Op → Fin 22
  | .subi => 0 | .add => 1 | .addi => 2 | .mul => 3 | .shr => 4 | .mov => 5 | .load => 6
  | .store => 7 | .movi => 8 | .cmp => 9 | .je => 10 | .jl => 11 | .jle => 12 | .jge => 13
  | .jbe => 14 | .jmp => 15 | .call => 16 | .ret => 17 | .push => 18 | .pop => 19
  | .print => 20 | .read => 21

/-- All 22 operations. -/
def Op.all : List Op :=
  [.subi, .add, .addi, .mul, .shr, .mov, .load, .store, .movi, .cmp,
   .je, .jl, .jle, .jge, .jbe, .jmp, .call, .ret, .push, .pop, .print, .read]

/-- How 4 image bytes form one instruction word: `INSTR_BYTE_ORDER` (R6, R64, D2). -/
inductive ByteOrder where
  | little
  | big
deriving DecidableEq, Repr

/-- The parameters that the core itself depends on (R6). They are arguments of the model: State
carries one value of them, which no step changes (log entry 4). -/
structure Config where
  /-- `STACK_SIZE`, equal to `SP_INIT`: the capacity in bytes and the reset value of SP (R35, D4). -/
  stackSize : Nat
  /-- `OPCODE_OF`: the 5-bit value of each operation, in the order of `Op.index` (R66, D1). -/
  opcodes : Vector (BitVec 5) 22
  /-- `INSTR_BYTE_ORDER` (R64, D2). -/
  byteOrder : ByteOrder
deriving DecidableEq, Repr

/-- `OPCODE_OF` as a map (R66). -/
def Config.opcodeOf (c : Config) (op : Op) : BitVec 5 := c.opcodes.get op.index

/-- `STACK_SIZE` is "a multiple of 4 with 4 ≤ STACK_SIZE ≤ 2^30" (R6). -/
abbrev Config.stackSizeOk (c : Config) : Prop :=
  c.stackSize % 4 = 0 ∧ 4 ≤ c.stackSize ∧ c.stackSize ≤ 2 ^ 30

/-- `OPCODE_OF` is "an injective map from the 22 operations to 5-bit values" (R66). -/
abbrev Config.opcodesOk (c : Config) : Prop := (Op.all.map c.opcodeOf).Nodup

/-- The legal parameter values (R6, R66). -/
abbrev Config.wf (c : Config) : Prop := c.stackSizeOk ∧ c.opcodesOk

/-- `FAULT_EXIT_STATUS`: the host's exit status after an execution-time fault. OPEN, with no default
(R6, D24), so the constant has no body and nothing can be proved about its value (log entry 12). -/
opaque Config.faultExitStatus : Nat

/-- The largest number of words of a program (R6, D5). -/
def maxProgramLength : Nat := 2 ^ 29

end Sys2Proof
end

