-- ==== Sys2Proof/Syntax.lean ====
section
/-! DEFINITION. The instructions, as syntax: one constructor for each mnemonic of
spec/opcode_table.json, carrying exactly the fields that 30_encoding.md R67 calls used. -/

namespace Sys2Proof

/-- The instructions. `r1` and `r2` are the raw 5-bit fields: values 17 to 31 decode without error
and fault only when the instruction executes (R65, R69). `imm` is the 16-bit field, sign-extended
on use (R62). Don't-care fields and bit 16 are not kept: they change nothing (R61, R67). `nop`
stands for both NOP rows of the table and keeps the undefined opcode value (R68, log entry 13). -/
inductive Instr where
  | subi (r1 : RegField) (imm : BitVec 16)
  | add (r1 r2 : RegField)
  | addi (r1 : RegField) (imm : BitVec 16)
  | mul (r1 r2 : RegField)
  | shr (r1 : RegField)
  | mov (r1 r2 : RegField)
  | load (r2 : RegField) (imm : BitVec 16)
  | store (r1 : RegField) (imm : BitVec 16)
  | movi (r1 : RegField) (imm : BitVec 16)
  | cmp (r1 r2 : RegField)
  | je (imm : BitVec 16)
  | jl (imm : BitVec 16)
  | jle (imm : BitVec 16)
  | jge (imm : BitVec 16)
  | jbe (imm : BitVec 16)
  | jmp (imm : BitVec 16)
  | call (imm : BitVec 16)
  | ret
  | push (r1 : RegField)
  | pop (r1 : RegField)
  | print (r1 : RegField)
  | read (r1 : RegField)
  | nop (opc : BitVec 5)
deriving DecidableEq, Repr

/-- The operation of an instruction, none for the undefined opcodes (R66, R68). -/
def Instr.op : Instr → Option Op
  | .subi _ _ => some .subi
  | .add _ _ => some .add
  | .addi _ _ => some .addi
  | .mul _ _ => some .mul
  | .shr _ => some .shr
  | .mov _ _ => some .mov
  | .load _ _ => some .load
  | .store _ _ => some .store
  | .movi _ _ => some .movi
  | .cmp _ _ => some .cmp
  | .je _ => some .je
  | .jl _ => some .jl
  | .jle _ => some .jle
  | .jge _ => some .jge
  | .jbe _ => some .jbe
  | .jmp _ => some .jmp
  | .call _ => some .call
  | .ret => some .ret
  | .push _ => some .push
  | .pop _ => some .pop
  | .print _ => some .print
  | .read _ => some .read
  | .nop _ => none

/-- The register fields an instruction uses, `r1` before `r2`: the table of R67. -/
def Instr.usedRegs : Instr → List RegField
  | .subi r1 _ => [r1]
  | .add r1 r2 => [r1, r2]
  | .addi r1 _ => [r1]
  | .mul r1 r2 => [r1, r2]
  | .shr r1 => [r1]
  | .mov r1 r2 => [r1, r2]
  | .load r2 _ => [r2]
  | .store r1 _ => [r1]
  | .movi r1 _ => [r1]
  | .cmp r1 r2 => [r1, r2]
  | .je _ => []
  | .jl _ => []
  | .jle _ => []
  | .jge _ => []
  | .jbe _ => []
  | .jmp _ => []
  | .call _ => []
  | .ret => []
  | .push r1 => [r1]
  | .pop r1 => [r1]
  | .print r1 => [r1]
  | .read r1 => [r1]
  | .nop _ => []

/-- The register field an instruction names as its explicit destination, from the effects of
41_alu.md to 45_io_and_nop.md. The implicit writes of SP and F (R18, R19) are not among them. -/
def Instr.destination : Instr → Option RegField
  | .subi r1 _ => some r1
  | .add _ r2 => some r2
  | .addi r1 _ => some r1
  | .mul _ r2 => some r2
  | .shr r1 => some r1
  | .mov _ r2 => some r2
  | .load r2 _ => some r2
  | .store _ _ => none
  | .movi r1 _ => some r1
  | .cmp _ _ => none
  | .je _ => none
  | .jl _ => none
  | .jle _ => none
  | .jge _ => none
  | .jbe _ => none
  | .jmp _ => none
  | .call _ => none
  | .ret => none
  | .push _ => none
  | .pop r1 => some r1
  | .print _ => none
  | .read r1 => some r1
  | .nop _ => none

end Sys2Proof
end

