-- ==== Sys2Proof/WellFormed.lean ====
section
/-! DEFINITION. Which instruction terms stand for an instruction word, and which of them name only
registers that exist. -/

namespace Sys2Proof

/-- The opcode values that `OPCODE_OF` does not assign (R68). -/
def Config.unassigned (c : Config) (opc : BitVec 5) : Bool :=
  Op.all.all fun op => c.opcodeOf op != opc

/-- A term is an instruction of the core with parameters `c`: the only check is that a `nop` carries
an unassigned opcode value (R68). Register fields of 17 to 31 are well formed: "the decoder accepts
both without error" (R69). -/
def Instr.wellFormed (c : Config) : Instr → Bool
  | .nop opc => c.unassigned opc
  | .subi _ _ | .add _ _ | .addi _ _ | .mul _ _ | .shr _ | .mov _ _ | .load _ _ | .store _ _
  | .movi _ _ | .cmp _ _ | .je _ | .jl _ | .jle _ | .jge _ | .jbe _ | .jmp _ | .call _ | .ret
  | .push _ | .pop _ | .print _ | .read _ => true

/-- "Only 0 to 16 name a register" (R20). -/
def fieldNamesRegister (f : RegField) : Bool := f.toNat ≤ 16

/-- Every used register field names a register, so that no RegisterFault arises (R84). -/
def Instr.registersExist (i : Instr) : Bool := i.usedRegs.all fieldNamesRegister

/-- Which of the fields `r1`, `r2`, `imm` an operation uses: the table of R67. -/
def Op.usesField : Op → Bool × Bool × Bool
  | .subi | .addi | .movi | .store => (true, false, true)
  | .add | .mul | .mov | .cmp => (true, true, false)
  | .shr | .push | .pop | .print | .read => (true, false, false)
  | .load => (false, true, true)
  | .je | .jl | .jle | .jge | .jbe | .jmp | .call => (false, false, true)
  | .ret => (false, false, false)

end Sys2Proof
end

