-- ==== Sys2Proof/Decode.lean ====
section
/-! DEFINITION. The decoder, the default parameter values it needs, the program image, and after them
the encoder (30_encoding.md R59 to R73). -/

namespace Sys2Proof

/-! ## Default parameters (R6) -/

/-- The default `OPCODE_OF`: SUBI = 0 to READ = 21, in the order of R66's table (D1, log entry 1). -/
def defaultOpcodes : Vector (BitVec 5) 22 :=
  #v[0, 1, 2, 3, 4, 5, 6, 7, 8, 9, 10, 11, 12, 13, 14, 15, 16, 17, 18, 19, 20, 21]

/-- The default parameters (R6): log entries 1, 2 and 3. -/
def Config.default : Config :=
  { stackSize := 1024, opcodes := defaultOpcodes, byteOrder := .little }

/-! ## From a word to an instruction -/

/-- The fields of a word (R59, R60). Bit 16 belongs to none of them (R61). -/
structure Fields where
  opc : BitVec 5
  r1 : RegField
  r2 : RegField
  imm16 : BitVec 16
deriving DecidableEq, Repr

/-- Field extraction (R60): `opc = w[31:27]`, `r1 = w[26:22]`, `r2 = w[21:17]`, `imm16 = w[15:0]`. -/
def fieldsOf (w : Word) : Fields :=
  { opc := w.extractLsb' 27 5, r1 := w.extractLsb' 22 5, r2 := w.extractLsb' 17 5,
    imm16 := w.extractLsb' 0 16 }

/-- `OPCODE_OF⁻¹(opc)`, none if the value is unassigned (R83). -/
def Config.operationOf (c : Config) (opc : BitVec 5) : Option Op :=
  Op.all.find? fun op => c.opcodeOf op == opc

/-- The instruction that an operation makes of the fields it uses (R67). -/
def instrOf (op : Op) (f : Fields) : Instr :=
  match op with
  | .subi => .subi f.r1 f.imm16
  | .add => .add f.r1 f.r2
  | .addi => .addi f.r1 f.imm16
  | .mul => .mul f.r1 f.r2
  | .shr => .shr f.r1
  | .mov => .mov f.r1 f.r2
  | .load => .load f.r2 f.imm16
  | .store => .store f.r1 f.imm16
  | .movi => .movi f.r1 f.imm16
  | .cmp => .cmp f.r1 f.r2
  | .je => .je f.imm16
  | .jl => .jl f.imm16
  | .jle => .jle f.imm16
  | .jge => .jge f.imm16
  | .jbe => .jbe f.imm16
  | .jmp => .jmp f.imm16
  | .call => .call f.imm16
  | .ret => .ret
  | .push => .push f.r1
  | .pop => .pop f.r1
  | .print => .print f.r1
  | .read => .read f.r1

/-- The decoder is total on words: an unassigned opcode value is a NOP, not an error (R65, R68). -/
def decode (c : Config) (w : Word) : Instr :=
  match c.operationOf (fieldsOf w).opc with
  | some op => instrOf op (fieldsOf w)
  | none => .nop (fieldsOf w).opc

/-! ## From bytes to words -/

/-- Why an image is not loaded. None of these is a fault of the core (R132). -/
inductive LoadError where
  /-- The length is not a multiple of 4 (R65, R132). -/
  | invalidEncoding
  /-- The length is 0: "file length must be a positive multiple of 4" (R132, C5). -/
  | emptyImage
  /-- More than 2^29 words: outside the launch premise (R78, D5, log entry 16). -/
  | imageTooLong
deriving DecidableEq, Repr

/-- The word that 4 image bytes form, the first byte at the lowest address (R64). -/
def wordOfBytes (o : ByteOrder) (b0 b1 b2 b3 : Byte) : Word :=
  match o with
  | .little => b3 ++ b2 ++ b1 ++ b0
  | .big => b0 ++ b1 ++ b2 ++ b3

/-- The 4 image bytes of a word, lowest address first: the inverse of `wordOfBytes` (R64). -/
def bytesOfWord (o : ByteOrder) (w : Word) : List Byte :=
  match o with
  | .little => [w.extractLsb' 0 8, w.extractLsb' 8 8, w.extractLsb' 16 8, w.extractLsb' 24 8]
  | .big => [w.extractLsb' 24 8, w.extractLsb' 16 8, w.extractLsb' 8 8, w.extractLsb' 0 8]

/-- One word per consecutive 4-byte group, in order; `InvalidEncoding` if the length is not a
multiple of 4 (R64, R65). -/
def decodeImage (o : ByteOrder) : List Byte → Except LoadError (List Word)
  | [] => .ok []
  | b0 :: b1 :: b2 :: b3 :: rest =>
    match decodeImage o rest with
    | .ok ws => .ok (wordOfBytes o b0 b1 b2 b3 :: ws)
    | .error e => .error e
  | _ => .error .invalidEncoding

/-- What the host accepts as a program (R132, R150, D5): the decoder's words, unless the image is
empty or too long. -/
def loadImage (o : ByteOrder) (image : List Byte) : Except LoadError (List Word) :=
  match decodeImage o image with
  | .error e => .error e
  | .ok [] => .error .emptyImage
  | .ok (w :: ws) => if ws.length < maxProgramLength then .ok (w :: ws) else .error .imageTooLong

/-- Decode the bytes of one instruction, total on any bytes: exactly one 4-byte group (R71). -/
def decodeBytes (c : Config) (bytes : List Byte) : Except LoadError Instr :=
  match decodeImage c.byteOrder bytes with
  | .error e => .error e
  | .ok [] => .error .emptyImage
  | .ok [w] => .ok (decode c w)
  | .ok (_ :: _ :: _) => .error .imageTooLong

/-- The instruction read from bits numbered as spec/opcode_table.json numbers them, under the default
parameters. `w` is laid out as the image stores it and given to `decodeBytes`. -/
def decodeTableWord (nbits w : Nat) : Option Instr :=
  if nbits ≤ 32 then
    (decodeBytes Config.default
      (bytesOfWord Config.default.byteOrder (BitVec.ofNat 32 (w % 2 ^ nbits)))).toOption
  else none

/-! ## The encoder -/

/-- `enc(op, a, b, k)` of R73 from the bits of the opcode: bit 16 is written as 0. -/
def packFields (f : Fields) : Word := f.opc ++ f.r1 ++ f.r2 ++ 0#1 ++ f.imm16

/-- The fields of an instruction, unwritten fields 0 (R75). -/
def fieldsOfInstr (c : Config) (i : Instr) : Fields :=
  match i with
  | .subi r1 imm => ⟨c.opcodeOf .subi, r1, 0, imm⟩
  | .add r1 r2 => ⟨c.opcodeOf .add, r1, r2, 0⟩
  | .addi r1 imm => ⟨c.opcodeOf .addi, r1, 0, imm⟩
  | .mul r1 r2 => ⟨c.opcodeOf .mul, r1, r2, 0⟩
  | .shr r1 => ⟨c.opcodeOf .shr, r1, 0, 0⟩
  | .mov r1 r2 => ⟨c.opcodeOf .mov, r1, r2, 0⟩
  | .load r2 imm => ⟨c.opcodeOf .load, 0, r2, imm⟩
  | .store r1 imm => ⟨c.opcodeOf .store, r1, 0, imm⟩
  | .movi r1 imm => ⟨c.opcodeOf .movi, r1, 0, imm⟩
  | .cmp r1 r2 => ⟨c.opcodeOf .cmp, r1, r2, 0⟩
  | .je imm => ⟨c.opcodeOf .je, 0, 0, imm⟩
  | .jl imm => ⟨c.opcodeOf .jl, 0, 0, imm⟩
  | .jle imm => ⟨c.opcodeOf .jle, 0, 0, imm⟩
  | .jge imm => ⟨c.opcodeOf .jge, 0, 0, imm⟩
  | .jbe imm => ⟨c.opcodeOf .jbe, 0, 0, imm⟩
  | .jmp imm => ⟨c.opcodeOf .jmp, 0, 0, imm⟩
  | .call imm => ⟨c.opcodeOf .call, 0, 0, imm⟩
  | .ret => ⟨c.opcodeOf .ret, 0, 0, 0⟩
  | .push r1 => ⟨c.opcodeOf .push, r1, 0, 0⟩
  | .pop r1 => ⟨c.opcodeOf .pop, r1, 0, 0⟩
  | .print r1 => ⟨c.opcodeOf .print, r1, 0, 0⟩
  | .read r1 => ⟨c.opcodeOf .read, r1, 0, 0⟩
  | .nop opc => ⟨opc, 0, 0, 0⟩

/-- The word of an instruction (R73, R75). -/
def encode (c : Config) (i : Instr) : Word := packFields (fieldsOfInstr c i)

/-- The image of a program: the inverse of `decodeImage` (R64). -/
def imageOf (o : ByteOrder) (words : List Word) : List Byte := words.flatMap (bytesOfWord o)

end Sys2Proof
end

