-- ==== Sys2Proof/Machine/State.lean ====
section
/-! DEFINITION. The state of the core, all of it (10_state.md), as plain data, and its reset. -/

namespace Sys2Proof.Machine

/-! ## Run state -/

/-- Why a run ended in success (R30, R88). -/
inductive HaltCause where
  /-- pc reached 4·N (R80). -/
  | endOfProgram
  /-- RET executed while SP = SP_INIT (R120). -/
  | emptyStackReturn
deriving DecidableEq, Repr

/-- A fault of the core with the values it records (R133 to R135). Taking one is a change of `run`
(R136), so a step that faults answers a next state (log entry 7). -/
inductive CoreFault where
  /-- A used register field held 17 to 31 (R133). -/
  | registerFault (pc : Word) (index : RegField)
  /-- An access outside [0, STACK_SIZE - 4]; `addr` is the exact integer (R134). -/
  | memoryFault (pc : Word) (addr : Int)
  /-- A step began with pc misaligned or above 4·N (R135). -/
  | fetchFault (pc : Word)
deriving DecidableEq, Repr

/-- The run state (R30): "exactly these values". -/
inductive RunState where
  | running
  | halted (cause : HaltCause)
  | faulted (fault : CoreFault)
deriving DecidableEq, Repr

/-! ## Memory -/

/-- Stack memory: address and byte pairs, addresses strictly rising, no byte equal to what an unlisted
address reads as. Addresses are below `stackSize` (an invariant, not a field). -/
abbrev Memory := List Host.Cell

/-- "At reset every byte is 0" (R40), and a byte never written reads 0 (R54). -/
def unlistedByte : Byte := 0

/-- The canonical form: addresses strictly rising, no listed byte equal to an unlisted one. -/
abbrev Memory.wf (m : Memory) : Prop :=
  m.Pairwise (fun x y => x.1 < y.1) ∧ ∀ c ∈ m, c.2 ≠ unlistedByte

/-! ## The state -/

/-- The whole state of the core. -/
structure State where
  /-- The parameters of this core (R6); no step changes them (log entry 4). -/
  cfg : Config
  /-- The register file x[0] to x[16] (R15); SP is x[6] and F is x[16] (R16). -/
  regs : Vector Word 17
  /-- The program counter, a byte address (R25). -/
  pc : Word
  /-- The run state (R30). -/
  run : RunState
  /-- Stack memory (R33, R40). -/
  mem : Memory
  /-- The program, `prog[0]` to `prog[N-1]` (R34). -/
  prog : List Word
  /-- The values that the host has offered at the input port and no READ has taken, oldest first
  (R38, R130, log entry 10). -/
  input : List Word
  /-- The output event stream, oldest first (R127). -/
  output : List Word
deriving DecidableEq, Repr

/-- The state after reset of a core with parameters `c` and program `prog` (R39). -/
def State.resetFor (c : Config) (prog : List Word) : State :=
  { cfg := c
    regs := (Vector.replicate 17 0).set SP (BitVec.ofNat 32 c.stackSize)
    pc := 0
    run := .running
    mem := []
    prog := prog
    input := []
    output := [] }

/-- The machine right after reset (R39), with the default parameters and no program loaded: the
program is the host's, not the core's (R150, log entry 5). -/
def State.reset : State := State.resetFor Config.default []

/-! ## Outcomes that are no next state -/

/-- Why a step answers no next state. The spec's own faults are not here: they are values of `run`
(`CoreFault`), which the step writes. -/
inductive Fault where
  /-- Raised by `step` alone, when the run has ended in success: "no step is enabled and the state is
  final" (R79, R31). Safe: the core takes no step there (log entry 8). -/
  | alreadyHalted (cause : HaltCause)
  /-- Raised by `step` alone, when the run has ended in a fault (R79, R31). Safe, as above. -/
  | alreadyFaulted (fault : CoreFault)
deriving DecidableEq, Repr

/-- Why an instruction has no meaning in the model. -/
inductive Refusal where
  /-- The instruction is not modelled. No arm of `exec` raises it. Safe. -/
  | notModelled (mnemonic : String)
deriving DecidableEq, Repr

/-- What a step and every meaning answer. -/
abbrev Result := Host.Outcome State Fault Refusal

end Sys2Proof.Machine
end

