-- ==== Sys2Proof/Machine/Ops.lean ====
section
/-! DEFINITION. The named operations over registers, memory, the program counter, the ports and the run
state. Every meaning is written over these. -/

namespace Sys2Proof.Machine

/-! ## Registers (R10, R17): no register is hard-wired -/

/-- `x[i]` (R10). -/
def State.reg (s : State) (i : RegIx) : Word := s.regs.get i

/-- `x[i] <- v` (R10). -/
def State.setReg (s : State) (i : RegIx) (v : Word) : State := { s with regs := s.regs.set i v }

/-! ## The program counter -/

/-- `pc <- target`, the last action of a step (R10, R87). -/
def State.setPc (s : State) (target : Word) : State := { s with pc := target }

/-- The end of an instruction that leaves `next_pc` at its default, `pc +w 4` (R87). -/
def State.advance (s : State) : State := s.setPc (s.pc + 4)

/-! ## Ending a run -/

/-- Fault entry (R136), the one way a fault is taken. `run` becomes `Faulted` with the recorded values;
no register, byte, event, input value or pc changes. No state is saved elsewhere and control goes to
no handler. There is no return from a fault (R142), so no operation undoes this one. -/
def State.takeFault (s : State) (f : CoreFault) : State := { s with run := .faulted f }

/-- `halt(cause)` (R12, R88): only `run` changes. -/
def State.halt (s : State) (cause : HaltCause) : State := { s with run := .halted cause }

/-! ## Bytes of memory -/

/-- The byte at an address. -/
def Memory.read : Memory → Nat → Byte
  | [], _ => unlistedByte
  | (k, b) :: rest, a => if k = a then b else Memory.read rest a

/-- Write one byte, keeping the canonical form. -/
def Memory.write : Memory → Nat → Byte → Memory
  | [], a, v => if v = unlistedByte then [] else [(a, v)]
  | (k, b) :: rest, a, v =>
    if a < k then (if v = unlistedByte then (k, b) :: rest else (a, v) :: (k, b) :: rest)
    else if a = k then (if v = unlistedByte then rest else (a, v) :: rest)
    else (k, b) :: Memory.write rest a v

/-- The word at byte address `a`, little-endian (R44, R46). -/
def Memory.load32 (m : Memory) (a : Nat) : Word :=
  m.read (a + 3) ++ m.read (a + 2) ++ m.read (a + 1) ++ m.read a

/-- Write the 4 bytes of a word, little-endian (R45, R46). -/
def Memory.store32 (m : Memory) (a : Nat) (v : Word) : Memory :=
  (((m.write a (v.extractLsb' 0 8)).write (a + 1) (v.extractLsb' 8 8)).write (a + 2)
    (v.extractLsb' 16 8)).write (a + 3) (v.extractLsb' 24 8)

/-! ## The two memory primitives (R11, R44, R45) -/

/-- An access at `a` is in bounds: not "a < 0 or a > STACK_SIZE - 4" (R44, R45). No alignment is asked
of a data address (R48). -/
abbrev State.inBounds (s : State) (a : Int) : Prop := 0 ≤ a ∧ a ≤ (s.cfg.stackSize : Int) - 4

/-- `MemRead(a, 4)` (R44): the word at `a` is given to `k`, or MemoryFault is raised. -/
def State.withLoad (s : State) (a : Int) (k : Word → Result) : Result :=
  if s.inBounds a then k (s.mem.load32 a.toNat)
  else .next (s.takeFault (.memoryFault s.pc a))

/-- `MemWrite(a, 4, v)` (R45): the state with the 4 bytes written is given to `k`, or MemoryFault is
raised and no byte is written. -/
def State.withStore (s : State) (a : Int) (v : Word) (k : State → Result) : Result :=
  if s.inBounds a then k { s with mem := s.mem.store32 a.toNat v }
  else .next (s.takeFault (.memoryFault s.pc a))

/-! ## The ports (R38, R126) -/

/-- `OUT.emit(v)` (R12, R127): one event at the end of the stream. -/
def State.emit (s : State) (v : Word) : State := { s with output := s.output ++ [v] }

/-- `IN.take()` (R12, R130): the oldest offered value is consumed and given to `k`. While the port holds
none, the core "stays Running at this pc with no change" (log entry 9). -/
def State.withInput (s : State) (k : Word → State → Result) : Result :=
  match s.input with
  | [] => .next s
  | v :: rest => k v { s with input := rest }

end Sys2Proof.Machine
end

