-- ==== Sys2Proof/Machine/Operands.lean ====
section
/-! DEFINITION. The operand forms: register fields, the sign-extended immediate as a value, as a scaled
stack offset and as a pc-relative offset (30_encoding.md R62, R63; 20_memory.md R43). -/

namespace Sys2Proof.Machine

/-! ## Register fields -/

/-- The register field that names a register (R20). -/
def regField (i : RegIx) : RegField := BitVec.ofNat 5 i.val

/-- The register-field check (R84): the named register is given to `k`, or, for a field of 17 to 31,
RegisterFault is raised before any state change. -/
def State.withReg (s : State) (f : RegField) (k : RegIx → Result) : Result :=
  if h : f.toNat < 17 then k ⟨f.toNat, h⟩
  else .next (s.takeFault (.registerFault s.pc f))

/-! ## Immediates -/

/-- `imm = sext_32(imm16)` (R9, R60, R62). -/
def sextImm (imm : BitVec 16) : Word := imm.signExtend 32

/-- The address of LOAD and STORE, an exact integer: `s32(SP) - 4·s32(imm)` (R43, R49). -/
def State.slotAddr (s : State) (imm : BitVec 16) : Int :=
  (s.reg SP).toInt - 4 * (sextImm imm).toInt

/-- The address of POP and RET: `s32(SP)` (R43). -/
def State.topAddr (s : State) : Int := (s.reg SP).toInt

/-- The stack pointer after a push: `SP -w 4` (R119, R121). -/
def State.pushedSp (s : State) : Word := s.reg SP - 4

/-- The address of PUSH and CALL: `s32(SP)` "after the decrement" (R43). -/
def State.pushAddr (s : State) : Int := s.pushedSp.toInt

/-- The target of a taken branch, JMP and CALL: `pc +w imm +w 4` (R91). -/
def State.target (s : State) (imm : BitVec 16) : Word := s.pc + sextImm imm + 4

/-- `SP_INIT` as a word (R35, R120). -/
def State.spInit (s : State) : Word := BitVec.ofNat 32 s.cfg.stackSize

end Sys2Proof.Machine
end

