-- ==== Sys2Proof/Machine/Alu.lean ====
section
/-! DEFINITION. The ALU instructions SUBI, ADD, ADDI, MUL, SHR (41_alu.md). Sources are read before the
destination is written (R103); all results wrap modulo 2^32 and no flag is written (R102). -/

namespace Sys2Proof.Machine

/-- `x[r] <- op(x[r])`: the shape of SUBI, ADDI and SHR. -/
def unaryAlu (op : Word → Word) (r : RegField) (s : State) : Result :=
  s.withReg r fun a => .next (s.setReg a (op (s.reg a))).advance

/-- `x[r2] <- op(x[r1], x[r2])`: the shape of ADD and MUL. `r1` is checked before `r2` (R84). -/
def binaryAlu (op : Word → Word → Word) (r1 r2 : RegField) (s : State) : Result :=
  s.withReg r1 fun a => s.withReg r2 fun b => .next (s.setReg b (op (s.reg a) (s.reg b))).advance

/-- SUBI: `x[r1] <- x[r1] -w imm` (R97). -/
def execSubi (r1 : RegField) (imm : BitVec 16) (s : State) : Result :=
  unaryAlu (fun v => v - sextImm imm) r1 s

/-- ADD: `x[r2] <- x[r2] +w x[r1]` (R98). -/
def execAdd (r1 r2 : RegField) (s : State) : Result := binaryAlu (fun a b => b + a) r1 r2 s

/-- ADDI: `x[r1] <- x[r1] +w imm` (R99). -/
def execAddi (r1 : RegField) (imm : BitVec 16) (s : State) : Result :=
  unaryAlu (fun v => v + sextImm imm) r1 s

/-- MUL: `x[r2] <- x[r1] *w x[r2]` (R100). -/
def execMul (r1 r2 : RegField) (s : State) : Result := binaryAlu (fun a b => a * b) r1 r2 s

/-- `0 ++ v[31:1]` (R101). -/
def shiftRightOne (v : Word) : Word := 0#1 ++ v.extractLsb' 1 31

/-- SHR: `x[r1] <- 0 ++ x[r1][31:1]` (R101). -/
def execShr (r1 : RegField) (s : State) : Result := unaryAlu shiftRightOne r1 s

end Sys2Proof.Machine
end

