-- ==== Sys2Proof/Machine/Flags.lean ====
section
/-! DEFINITION. The flags word: its layout, what CMP writes and what the branches test
(10_state.md R22; 43_compare_branch.md R109 to R114). -/

namespace Sys2Proof.Machine

/-! ## Layout (R22) -/

/-- CF is bit 0. -/
def flagCF (f : Word) : Bool := f.getLsbD 0

/-- ZF is bit 6. -/
def flagZF (f : Word) : Bool := f.getLsbD 6

/-- SF is bit 7. -/
def flagSF (f : Word) : Bool := f.getLsbD 7

/-- OF is bit 11. -/
def flagOF (f : Word) : Bool := f.getLsbD 11

/-- `zext_32(OF ++ 000 ++ SF ++ ZF ++ 00000 ++ CF)` (R109): every other bit is 0. -/
def packFlags (cf zf sf of : Bool) : Word :=
  (BitVec.ofBool of ++ 0#3 ++ BitVec.ofBool sf ++ BitVec.ofBool zf ++ 0#5 ++
    BitVec.ofBool cf : BitVec 12).setWidth 32

/-! ## What CMP writes (R109): `a` is the minuend x[r2], `b` the subtrahend x[r1] -/

/-- `CF <- 1 if u32(a) < u32(b) else 0`. -/
def cmpCF (a b : Word) : Bool := a.toNat < b.toNat

/-- `ZF <- 1 if d = 0 else 0`, with `d` the 32-bit difference. -/
def cmpZF (a b : Word) : Bool := a - b == 0

/-- `SF <- d[31]`. -/
def cmpSF (a b : Word) : Bool := (a - b).getLsbD 31

/-- `OF <- 1 if D < -2^31 or D > 2^31 - 1 else 0`, with `D` the exact signed difference. -/
def cmpOF (a b : Word) : Bool :=
  a.toInt - b.toInt < -2 ^ 31 || 2 ^ 31 - 1 < a.toInt - b.toInt

/-- The whole flags word of a compare. -/
def cmpFlags (a b : Word) : Word := packFlags (cmpCF a b) (cmpZF a b) (cmpSF a b) (cmpOF a b)

/-! ## What the branches test -/

/-- JE: the zero flag is set (R110). -/
def condE (f : Word) : Bool := flagZF f

/-- JL: sign xor overflow (R111). -/
def condL (f : Word) : Bool := flagSF f ^^ flagOF f

/-- JLE: (sign xor overflow) or zero (R112). -/
def condLE (f : Word) : Bool := (flagSF f ^^ flagOF f) || flagZF f

/-- JGE: not (sign xor overflow) (R113). -/
def condGE (f : Word) : Bool := !(flagSF f ^^ flagOF f)

/-- JBE: zero or carry (R114). -/
def condBE (f : Word) : Bool := flagZF f || flagCF f

end Sys2Proof.Machine
end

