-- ==== Sys2Proof/Machine/Branch.lean ====
section
/-! DEFINITION. Compare and branch: CMP, JE, JL, JLE, JGE, JBE, JMP (43_compare_branch.md). -/

namespace Sys2Proof.Machine

/-- CMP: F takes the flags of `x[r2] - x[r1]`; both reads happen before the write (R109). -/
def execCmp (r1 r2 : RegField) (s : State) : Result :=
  s.withReg r1 fun b => s.withReg r2 fun a => .next (s.setReg F (cmpFlags (s.reg a) (s.reg b))).advance

/-- `if cond(F): next_pc <- pc +w imm +w 4`: the common part of the conditional branches. The target is
not checked here; the next fetch may fault (R90). -/
def branchIf (cond : Word → Bool) (imm : BitVec 16) (s : State) : Result :=
  .next (if cond (s.reg F) then s.setPc (s.target imm) else s.advance)

/-- JE (R110). -/
def execJe (imm : BitVec 16) (s : State) : Result := branchIf condE imm s

/-- JL (R111). -/
def execJl (imm : BitVec 16) (s : State) : Result := branchIf condL imm s

/-- JLE (R112). -/
def execJle (imm : BitVec 16) (s : State) : Result := branchIf condLE imm s

/-- JGE (R113). -/
def execJge (imm : BitVec 16) (s : State) : Result := branchIf condGE imm s

/-- JBE (R114). -/
def execJbe (imm : BitVec 16) (s : State) : Result := branchIf condBE imm s

/-- JMP: always taken; F is not read (R115). -/
def execJmp (imm : BitVec 16) (s : State) : Result := .next (s.setPc (s.target imm))

end Sys2Proof.Machine
end

