-- ==== Sys2Proof/Machine/Call.lean ====
section
/-! DEFINITION. Call, return and stack: CALL, RET, PUSH, POP (44_call_stack.md). Statements run in the
order the rules write them (D18). -/

namespace Sys2Proof.Machine

/-- CALL: push the return address `pc +w 4`, then go to the target (R119). -/
def execCall (imm : BitVec 16) (s : State) : Result :=
  s.withStore s.pushAddr (s.pc + 4) fun t => .next ((t.setReg SP s.pushedSp).setPc (s.target imm))

/-- RET: halt if SP = SP_INIT, with `pc`, registers and memory unchanged; else pop into `next_pc`
(R120). The halt test comes before the bounds check (R139). -/
def execRet (s : State) : Result :=
  if s.reg SP = s.spInit then .next (s.halt .emptyStackReturn)
  else s.withLoad s.topAddr fun v => .next ((s.setReg SP (s.reg SP + 4)).setPc v)

/-- PUSH: the decremented SP is stored if `r1` is 6, else `x[r1]` (R121). -/
def execPush (r1 : RegField) (s : State) : Result :=
  s.withReg r1 fun a =>
    s.withStore s.pushAddr (if a = SP then s.pushedSp else s.reg a) fun t =>
      .next (t.setReg SP s.pushedSp).advance

/-- `x[r] <- v`, then `x[6] <- x[6] +w 4`, which "reads x[6] after the write above" (R122). -/
def State.popInto (s : State) (a : RegIx) (v : Word) : State :=
  let t := s.setReg a v
  t.setReg SP (t.reg SP + 4)

/-- POP (R122). -/
def execPop (r1 : RegField) (s : State) : Result :=
  s.withReg r1 fun a => s.withLoad s.topAddr fun v => .next (s.popInto a v).advance

end Sys2Proof.Machine
end

