-- ==== Sys2Proof/Machine/Io.lean ====
section
/-! DEFINITION. The I/O instructions PRINT and READ, and the undefined-opcode NOP (45_io_and_nop.md). -/

namespace Sys2Proof.Machine

/-- PRINT: `OUT.emit(x[r1])` (R128). -/
def execPrint (r1 : RegField) (s : State) : Result :=
  s.withReg r1 fun a => .next (s.emit (s.reg a)).advance

/-- READ: `x[r1] <- IN.take()` (R130). The field is checked "before any wait". -/
def execRead (r1 : RegField) (s : State) : Result :=
  s.withReg r1 fun a => s.withInput fun v t => .next (t.setReg a v).advance

/-- NOP: only `pc` advances (R131). -/
def execNop (s : State) : Result := .next s.advance

end Sys2Proof.Machine
end

