-- ==== Sys2Proof/Machine/Move.lean ====
section
/-! DEFINITION. The move instructions MOV, LOAD, STORE, MOVI (42_move.md). None writes the flags or
changes `next_pc` (R108). -/

namespace Sys2Proof.Machine

/-- MOV: `x[r2] <- x[r1]` (R104). -/
def execMov (r1 r2 : RegField) (s : State) : Result :=
  s.withReg r1 fun a => s.withReg r2 fun b => .next (s.setReg b (s.reg a)).advance

/-- LOAD: `x[r2] <- MemRead(s32(SP) - 4·s32(imm), 4)` (R105). The field is checked before the address. -/
def execLoad (r2 : RegField) (imm : BitVec 16) (s : State) : Result :=
  s.withReg r2 fun b => s.withLoad (s.slotAddr imm) fun v => .next (s.setReg b v).advance

/-- STORE: `MemWrite(s32(SP) - 4·s32(imm), 4, x[r1])` (R106). -/
def execStore (r1 : RegField) (imm : BitVec 16) (s : State) : Result :=
  s.withReg r1 fun a => s.withStore (s.slotAddr imm) (s.reg a) fun t => .next t.advance

/-- MOVI: `x[r1] <- imm` (R107). -/
def execMovi (r1 : RegField) (imm : BitVec 16) (s : State) : Result :=
  s.withReg r1 fun a => .next (s.setReg a (sextImm imm)).advance

end Sys2Proof.Machine
end

