-- ==== Sys2Proof/Machine/Dispatch.lean ====
section
/-! DEFINITION. One arm per instruction (40_executor.md R85). -/

namespace Sys2Proof.Machine

-- `exec i s` is the step of R86 from the register-field check on, in a state whose pc is that of `i`.
def exec (i : Instr) (s : State) : Host.Outcome State Fault Refusal :=
  match i with
  | .subi r1 imm => Sys2Proof.Machine.execSubi r1 imm s
  | .add r1 r2 => Sys2Proof.Machine.execAdd r1 r2 s
  | .addi r1 imm => Sys2Proof.Machine.execAddi r1 imm s
  | .mul r1 r2 => Sys2Proof.Machine.execMul r1 r2 s
  | .shr r1 => Sys2Proof.Machine.execShr r1 s
  | .mov r1 r2 => Sys2Proof.Machine.execMov r1 r2 s
  | .load r2 imm => Sys2Proof.Machine.execLoad r2 imm s
  | .store r1 imm => Sys2Proof.Machine.execStore r1 imm s
  | .movi r1 imm => Sys2Proof.Machine.execMovi r1 imm s
  | .cmp r1 r2 => Sys2Proof.Machine.execCmp r1 r2 s
  | .je imm => Sys2Proof.Machine.execJe imm s
  | .jl imm => Sys2Proof.Machine.execJl imm s
  | .jle imm => Sys2Proof.Machine.execJle imm s
  | .jge imm => Sys2Proof.Machine.execJge imm s
  | .jbe imm => Sys2Proof.Machine.execJbe imm s
  | .jmp imm => Sys2Proof.Machine.execJmp imm s
  | .call imm => Sys2Proof.Machine.execCall imm s
  | .ret => Sys2Proof.Machine.execRet s
  | .push r1 => Sys2Proof.Machine.execPush r1 s
  | .pop r1 => Sys2Proof.Machine.execPop r1 s
  | .print r1 => Sys2Proof.Machine.execPrint r1 s
  | .read r1 => Sys2Proof.Machine.execRead r1 s
  | .nop _ => Sys2Proof.Machine.execNop s

end Sys2Proof.Machine
end

