-- ==== Sys2Proof/Machine/Fetch.lean ====
section
/-! DEFINITION. The end-of-program check, the fetch check and the fetch (40_executor.md R80 to R83), and
placing a word where the next fetch reads it. -/

namespace Sys2Proof.Machine

/-- The sentinel `4·N` (R80). -/
def State.sentinel (s : State) : Nat := 4 * s.prog.length

/-- "If u32(pc) = 4·N" (R80). -/
def State.atEnd (s : State) : Bool := s.pc.toNat == s.sentinel

/-- Not "u32(pc) mod 4 ≠ 0, or u32(pc) > 4·N" (R82). -/
def State.fetchable (s : State) : Bool := s.pc.toNat % 4 == 0 && decide (s.pc.toNat ≤ s.sentinel)

/-- `w <- prog[u32(pc) / 4]` after the fetch check, or FetchFault(pc) (R82, R83). The end-of-program check
comes first (R81), so a fetchable pc has a word. -/
def State.fetch (s : State) : Except CoreFault Word :=
  if s.fetchable then
    match s.prog[s.pc.toNat / 4]? with
    | some w => .ok w
    | none => .error (.fetchFault s.pc)
  else .error (.fetchFault s.pc)

/-- The word that fills up a program in `placeWord`: the NOP of R75 under the default opcodes. -/
def paddingWord : Word := 0xf8000000

/-- `s` running, with `w` stored where the next fetch reads. pc is rounded down to a multiple of 4 and
the program is filled up to it if it is shorter; where pc is a multiple of 4 below `4·N` already,
one word of the program changes. Used for `withFetchWord` alone (log entry 6). -/
def State.placeWord (s : State) (w : Word) : State :=
  let k := s.pc.toNat / 4
  { s with
    run := .running
    pc := BitVec.ofNat 32 (4 * k)
    prog := s.prog.take k ++ List.replicate (k - s.prog.length) paddingWord ++ w :: s.prog.drop (k + 1) }

end Sys2Proof.Machine
end

