-- ==== Sys2Proof/Machine/Step.lean ====
section
/-! DEFINITION. The step of the core (40_executor.md R86), and the word placed for the next fetch. -/

namespace Sys2Proof.Machine

/-- One step (R86), in its order: the step is enabled only while running (R79); then the end-of-program
check (R80), the fetch check (R82), decoding (R83) and the instruction (R84, R85). In an ended run no
step is enabled and the answer is a `Fault` by name (log entry 8). -/
def step (s : State) : Host.Outcome State Fault Refusal :=
  match s.run with
  | .halted cause => .fault (.alreadyHalted cause)
  | .faulted f => .fault (.alreadyFaulted f)
  | .running =>
    if s.atEnd then .next (s.halt .endOfProgram)
    else
      match s.fetch with
      | .error f => .next (s.takeFault f)
      | .ok w => exec (decode s.cfg w) s

/-- `s` with an instruction word stored where `step` fetches its next instruction (log entries 5, 6).
`w` has the bits of the word numbered from 0; bits at `nbits` and above are 0. -/
def State.withFetchWord (s : State) (nbits w : Nat) : State :=
  s.placeWord (BitVec.ofNat 32 (w % 2 ^ nbits))

end Sys2Proof.Machine
end

