-- ==== Sys2Proof/Machine/Boundary.lean ====
section
/-! DEFINITION. The core's boundary with the host (10_state.md R38): the boot sequence, offering input,
rendering output, fault codes and exit status. None of these is a step of the core. -/

namespace Sys2Proof.Machine

/-! ## Boot (R150) -/

/-- The reset sequence: load and decode the image, or stop before the core starts (R132); then the state
of R39. Each run starts here and keeps nothing of an earlier one (R153). -/
def boot (c : Config) (image : List Byte) : Except LoadError State :=
  match loadImage c.byteOrder image with
  | .ok prog => .ok (State.resetFor c prog)
  | .error e => .error e

/-! ## The input port (R130) -/

/-- The host offers one value between two steps; it waits behind those offered before it. -/
def State.offerInput (s : State) (v : Word) : State := { s with input := s.input ++ [v] }

/-- The value of one token: an integer, or none for a malformed token or the end of input. A token outside
[-2^31, 2^31) or none "offers no value" (R130, D19). -/
def tokenValue (token : Option Int) : Option Word :=
  match token with
  | some k => if -2 ^ 31 ≤ k ∧ k < 2 ^ 31 then some (BitVec.ofInt 32 k) else none
  | none => none

/-- The host reads one token. One without a value changes nothing, and the state does not remember it: a
value offered later still ends the wait of a READ (DESIGN CHOICE, log entry 15). -/
def State.offerToken (s : State) (token : Option Int) : State :=
  match tokenValue token with
  | some v => s.offerInput v
  | none => s

/-- The host reads a stream of tokens. At the first one without a value "the `READ` waits for ever" (D19), so
no later token of the stream is offered. The spec does not say what becomes of those tokens
(DESIGN CHOICE, log entry 15). -/
def State.offerTokens (s : State) : List (Option Int) → State
  | [] => s
  | token :: rest =>
    match tokenValue token with
    | some v => (s.offerInput v).offerTokens rest
    | none => s

/-! ## Output (R129) -/

/-- A signed decimal number, with a leading `-` for negative values. -/
def decimalOf (k : Int) : List Char :=
  if k < 0 then '-' :: Nat.toDigits 10 k.natAbs else Nat.toDigits 10 k.natAbs

/-- The line of one output event: the decimal of `s32(v)`, then the lowercase hexadecimal of `u32(v)`
with no leading zeros in parentheses (R129, D20). -/
def renderEvent (v : Word) : List Char :=
  decimalOf v.toInt ++ [' ', '(', '0', 'x'] ++ Nat.toDigits 16 v.toNat ++ [')', '\n']

/-! ## Status (R30, R38) -/

/-- The pc of the instruction or fetch that faulted: `at` of R30. -/
def CoreFault.atPc : CoreFault → Word
  | .registerFault pc _ => pc
  | .memoryFault pc _ => pc
  | .fetchFault pc => pc

/-- The numeric code of a fault, "the spec's own choice" (R137, D16). -/
def CoreFault.code : CoreFault → Nat
  | .registerFault _ _ => 2
  | .memoryFault _ _ => 3
  | .fetchFault _ => 4

/-- The code of a load-time condition: only InvalidEncoding has one (R137). -/
def LoadError.code : LoadError → Option Nat
  | .invalidEncoding => some 1
  | .emptyImage => none
  | .imageTooLong => none

/-- The host's exit status (R96, R132, D24): none while the run has not ended, 0 after a halt, the open
parameter after a fault. -/
def exitStatus : RunState → Option Nat
  | .running => none
  | .halted _ => some 0
  | .faulted _ => some Config.faultExitStatus

/-- The host's exit status after a load-time error (R132). -/
def loadErrorStatus : Nat := 1

end Sys2Proof.Machine
end

