-- ==== Sys2Proof/Safety.lean ====
section
/-! DEFINITION. The terms that claims use: which steps are enabled, what a safe and a successful run is,
the invariant of the machine, and what an instruction leaves unchanged. -/

namespace Sys2Proof.Machine

/-! ## Enabled steps and ends of runs -/

/-- The instruction at pc: none at the end of the program and where the fetch faults (R80 to R83). -/
def State.current (s : State) : Option Instr :=
  if s.atEnd then none
  else match s.fetch with
    | .ok w => some (decode s.cfg w)
    | .error _ => none

/-- A READ that has passed its field check finds no input value (R130, R139): the core waits. -/
def State.waiting (s : State) : Bool :=
  match s.current with
  | some (.read r1) => fieldNamesRegister r1 && s.input.isEmpty
  | _ => false

/-- "A step is enabled only while run = Running" (R79), and not while a READ waits (R32, R130). A claim
about progress uses this test, not that `step` answers a next state (log entry 9). -/
def State.stepEnabled (s : State) : Bool := s.run == .running && !s.waiting

/-- "A run has ended when run is Halted or Faulted" (R95). -/
def State.ended (s : State) : Bool := s.run != .running

/-- "A run is successful when it has ended in a Halted state" (R95). -/
def State.successful (s : State) : Bool :=
  match s.run with
  | .halted _ => true
  | .running => false
  | .faulted _ => false

/-- A safe state has not faulted. -/
def State.safe (s : State) : Bool :=
  match s.run with
  | .faulted _ => false
  | .running => true
  | .halted _ => true

/-! ## The invariant -/

/-- The recorded values of a fault belong to a condition of R133 to R135 that holds in `s`. -/
def State.faultJustified (s : State) : CoreFault → Prop
  | .registerFault pc index => pc = s.pc ∧ 16 < index.toNat
  | .memoryFault pc addr => pc = s.pc ∧ ¬ s.inBounds addr
  | .fetchFault pc => pc = s.pc ∧ s.fetchable = false

/-- The run state agrees with the rest: at the end of the program pc is the sentinel (R80), at an
empty-stack return SP is SP_INIT (R88), at a fault pc is that of the fault and its cause holds (R136). -/
def State.runJustified (s : State) : Prop :=
  match s.run with
  | .running => True
  | .halted .endOfProgram => s.pc.toNat = s.sentinel
  | .halted .emptyStackReturn => s.reg SP = BitVec.ofNat 32 s.cfg.stackSize
  | .faulted f => s.faultJustified f

/-- Memory is canonical and lies in [0, STACK_SIZE) (R40). -/
def State.memOk (s : State) : Prop := s.mem.wf ∧ ∀ c ∈ s.mem, c.1 < s.cfg.stackSize

/-- The invariant of the machine. -/
structure State.Inv (s : State) : Prop where
  cfg : s.cfg.wf
  prog : s.prog.length ≤ maxProgramLength
  mem : s.memOk
  run : s.runJustified

/-- SP is a multiple of 4 in [0, STACK_SIZE] (R123). -/
def State.spDisciplined (s : State) : Prop :=
  (s.reg SP).toNat % 4 = 0 ∧ (s.reg SP).toNat ≤ s.cfg.stackSize

/-- F holds only the four bits that CMP writes (R22, R24). -/
def fourFlagBits (f : Word) : Prop :=
  ∀ k : Nat, k ≠ 0 → k ≠ 6 → k ≠ 7 → k ≠ 11 → f.getLsbD k = false

/-! ## What an instruction may write, read off the rules -/

/-- The implicit register writes of R67 (R18, R19): SP for the stack operations, F for CMP. -/
def implicitWrites : Instr → List RegIx
  | .call _ | .ret | .push _ | .pop _ => [SP]
  | .cmp _ _ => [F]
  | .subi _ _ | .add _ _ | .addi _ _ | .mul _ _ | .shr _ | .mov _ _ | .load _ _ | .store _ _
  | .movi _ _ | .je _ | .jl _ | .jle _ | .jge _ | .jbe _ | .jmp _ | .print _ | .read _ | .nop _ => []

/-- The address an instruction stores to in `s`, for the three that store (R106, R119, R121). -/
def State.storeAddr (s : State) : Instr → Option Int
  | .store _ imm => some (s.slotAddr imm)
  | .call _ | .push _ => some s.pushAddr
  | .subi _ _ | .add _ _ | .addi _ _ | .mul _ _ | .shr _ | .mov _ _ | .load _ _ | .movi _ _
  | .cmp _ _ | .je _ | .jl _ | .jle _ | .jge _ | .jbe _ | .jmp _ | .ret | .pop _ | .print _
  | .read _ | .nop _ => none

/-! ## What is left unchanged -/

/-- Every register outside `ds` is unchanged. -/
def KeepsRegs (ds : List RegIx) (s t : State) : Prop := ∀ i : RegIx, i ∉ ds → t.reg i = s.reg i

/-- Every byte of memory is unchanged. -/
def KeepsMem (s t : State) : Prop := ∀ a : Nat, t.mem.read a = s.mem.read a

/-- Every byte of memory outside the 4 bytes at `a` is unchanged. -/
def KeepsMemOutside (a : Int) (s t : State) : Prop :=
  ∀ n : Nat, (n : Int) < a ∨ a + 4 ≤ (n : Int) → t.mem.read n = s.mem.read n

/-- The 4 bytes at `a` hold `v`, the byte at the lowest address bits 7:0 (R45, R46). -/
def HoldsWordAt (a : Int) (v : Word) (t : State) : Prop :=
  ∀ k : Nat, k < 4 → t.mem.read (a.toNat + k) = v.extractLsb' (8 * k) 8

/-- No event is emitted and no input value consumed. -/
def KeepsPorts (s t : State) : Prop := t.input = s.input ∧ t.output = s.output

/-- The parameters and the program, which nothing changes (R34, R35, R41). -/
def KeepsFixed (s t : State) : Prop := t.cfg = s.cfg ∧ t.prog = s.prog

/-- From `s` to `t` at most the registers `ds` and pc differ. -/
def OnlyRegs (ds : List RegIx) (s t : State) : Prop :=
  KeepsRegs ds s t ∧ KeepsMem s t ∧ KeepsPorts s t ∧ KeepsFixed s t ∧ t.run = s.run

/-- From `s` to `t` at most the registers `ds`, pc and the 4 bytes at `a` differ, and these hold `v`. -/
def OnlyRegsAndWord (ds : List RegIx) (a : Int) (v : Word) (s t : State) : Prop :=
  KeepsRegs ds s t ∧ HoldsWordAt a v t ∧ KeepsMemOutside a s t ∧ KeepsPorts s t ∧
    KeepsFixed s t ∧ t.run = s.run

/-- From `s` to `t` only the run state differs. -/
def OnlyRun (s t : State) : Prop :=
  KeepsRegs [] s t ∧ t.pc = s.pc ∧ KeepsMem s t ∧ KeepsPorts s t ∧ KeepsFixed s t

/-! ## Shapes of claims about one instruction -/

/-- Every word whose opcode is that of `op` decodes, under any injective `OPCODE_OF`, to the instruction
`make` builds from its fields. -/
def DecodesTo (op : Op) (make : Fields → Instr) : Prop :=
  ∀ (c : Config) (w : Word), c.opcodesOk → (fieldsOf w).opc = c.opcodeOf op →
    decode c w = make (fieldsOf w)

/-- The answer is the entry of fault `f` at `s`: nothing but the run state changes (R136). -/
def FaultsWith (i : Instr) (s : State) (f : CoreFault) : Prop :=
  ∃ t, exec i s = .next t ∧ t.run = .faulted f ∧ OnlyRun s t

/-- A one-field instruction faults on a field of 17 to 31 (R84). -/
def ChecksField (make : RegField → Instr) : Prop :=
  ∀ (s : State) (r : RegField), 16 < r.toNat → FaultsWith (make r) s (.registerFault s.pc r)

/-- A two-field instruction checks `r1`, then `r2` (R84). -/
def ChecksFields (make : RegField → RegField → Instr) : Prop :=
  (∀ (s : State) (r1 r2 : RegField), 16 < r1.toNat →
    FaultsWith (make r1 r2) s (.registerFault s.pc r1)) ∧
  (∀ (s : State) (r1 r2 : RegField), r1.toNat ≤ 16 → 16 < r2.toNat →
    FaultsWith (make r1 r2) s (.registerFault s.pc r2))

/-- `t` is at the target `pc + imm + 4` of `s`, computed exactly and reduced modulo 2^32 (R91). -/
def AtTarget (s t : State) (imm : BitVec 16) : Prop :=
  t.pc = BitVec.ofInt 32 ((s.pc.toNat : Int) + imm.toInt + 4)

/-- A conditional branch completes in every state: it goes to its target where `taken` holds of F and to
the next instruction elsewhere, and changes nothing but pc (R91, R110 to R114). -/
def BranchesWhen (taken : Word → Prop) (make : BitVec 16 → Instr) : Prop :=
  ∀ (s : State) (imm : BitVec 16), ∃ t, exec (make imm) s = .next t ∧ OnlyRegs [] s t ∧
    (taken (s.reg F) → AtTarget s t imm) ∧ (¬ taken (s.reg F) → t.pc = s.pc + 4)

end Sys2Proof.Machine
end

