-- ==== Sys2Proof/Certificates/Slice0/Obligations.lean ====
section
/-! DEFINITION. The statements for the provers. Rule numbers R<n> and decisions D<n> are the spec's. A
statement whose basis is 'derived' rests on a decision or an inference that the spec marks as its own,
or on a choice of the model that its docstring names. -/

open Sys2Proof Sys2Proof.Machine

/-! ## Encoding and the image -/

/-- R73 (which the spec derives from R59 and R60): decoding the encoded word of any well-formed
instruction gives it back, for every injective OPCODE_OF (R66) and every operand value. -/
def Obligations.DecodeOfEncodeIsIdentity : Prop :=
  ∀ (c : Config) (i : Instr), c.opcodesOk → i.wellFormed c = true → decode c (encode c i) = i

/-- R65, R68, R70: every word decodes to a well-formed instruction, whose operation is the one OPCODE_OF
assigns to bits 31:27, and none (a NOP) exactly where it assigns none. -/
def Obligations.EveryWordNamesOneOperation : Prop :=
  ∀ (c : Config) (w : Word), (decode c w).wellFormed c = true ∧
    (∀ op, (decode c w).op = some op → c.opcodeOf op = w.extractLsb' 27 5) ∧
    (c.opcodesOk → ∀ op, c.opcodeOf op = w.extractLsb' 27 5 → (decode c w).op = some op) ∧
    ((∀ op, c.opcodeOf op ≠ w.extractLsb' 27 5) → decode c w = .nop (w.extractLsb' 27 5))

/-- R61: two words that differ only in bit 16 decode alike, so they behave identically. -/
def Obligations.Bit16IsIgnored : Prop :=
  ∀ (c : Config) (w v : Word), (∀ k, k < 32 → k ≠ 16 → w.getLsbD k = v.getLsbD k) →
    decode c w = decode c v ∧ ∀ s, exec (decode c w) s = exec (decode c v) s

/-- R67 (its reading of the effect column is D12): words with the same opcode that agree in every field
their operation uses decode alike, and words of an unassigned opcode need agree in nothing else. -/
def Obligations.UnusedFieldsChangeNothing : Prop :=
  ∀ (c : Config) (w v : Word), (fieldsOf w).opc = (fieldsOf v).opc →
    (∀ op, c.operationOf (fieldsOf w).opc = some op →
      (op.usesField.1 = true → (fieldsOf w).r1 = (fieldsOf v).r1) ∧
      (op.usesField.2.1 = true → (fieldsOf w).r2 = (fieldsOf v).r2) ∧
      (op.usesField.2.2 = true → (fieldsOf w).imm16 = (fieldsOf v).imm16)) →
    decode c w = decode c v

/-- R60 and R62: the places of the fields, as arithmetic on the word, and the sign extension. -/
def Obligations.FieldsAndImmediateOfAWord : Prop :=
  ∀ w : Word,
    (fieldsOf w).opc.toNat = w.toNat / 2 ^ 27 ∧
    (fieldsOf w).r1.toNat = w.toNat / 2 ^ 22 % 32 ∧
    (fieldsOf w).r2.toNat = w.toNat / 2 ^ 17 % 32 ∧
    (fieldsOf w).imm16.toNat = w.toNat % 2 ^ 16 ∧
    (sextImm (fieldsOf w).imm16).toInt =
      (if w.toNat % 2 ^ 16 < 2 ^ 15 then ((w.toNat % 2 ^ 16 : Nat) : Int)
       else ((w.toNat % 2 ^ 16 : Nat) : Int) - 2 ^ 16)

/-- A few words written out from the encodings of R59 and R66 decode to what they stand for (a sanity
statement; under the default OPCODE_OF, which is the spec's D1). -/
def Obligations.WrittenWordsDecode : Prop :=
  decodeTableWord 32 0x00000003 = some (.subi 0 3) ∧
  decodeTableWord 32 0x18c80000 = some (.mul 3 4) ∧
  decodeTableWord 32 0x37c40000 = some (.load 2 0) ∧
  decodeTableWord 32 0x38800001 = some (.store 2 1) ∧
  decodeTableWord 32 0x5800fff0 = some (.jl 0xfff0) ∧
  decodeTableWord 32 0x8ffe0000 = some .ret ∧
  decodeTableWord 32 0xad000000 = some (.read 20) ∧
  decodeTableWord 32 0xb0000000 = some (.nop 22) ∧
  decodeTableWord 32 0xffffffff = some (.nop 31)

/-- R64 (both values of INSTR_BYTE_ORDER): the image of a program decodes to the program. -/
def Obligations.ImageOfAProgramDecodesToIt : Prop :=
  ∀ (o : ByteOrder) (words : List Word), decodeImage o (imageOf o words) = .ok words

/-- R64 and R65: the image decoder fails exactly where the length is not a multiple of 4, with
InvalidEncoding, and then no core is started; elsewhere it makes one word of each 4-byte group in
order, with the byte at the lowest address lowest under little-endian and highest under big. -/
def Obligations.ImageDecodesByGroups : Prop :=
  ∀ (c : Config) (image : List Byte),
    (image.length % 4 ≠ 0 → decodeImage c.byteOrder image = .error .invalidEncoding ∧
      boot c image = .error .invalidEncoding) ∧
    (image.length % 4 = 0 → ∃ words, decodeImage c.byteOrder image = .ok words ∧
      4 * words.length = image.length ∧
      ∀ (k : Nat) (b0 b1 b2 b3 : Byte), image[4 * k]? = some b0 → image[4 * k + 1]? = some b1 →
        image[4 * k + 2]? = some b2 → image[4 * k + 3]? = some b3 →
        words[k]? = some (match c.byteOrder with
          | .little => b3 ++ b2 ++ b1 ++ b0
          | .big => b0 ++ b1 ++ b2 ++ b3))

/-! ## Reset and boot -/

/-- R39: the state after reset, for every value of the parameters and every program. That F and pc are 0
is the spec's own choice (D8, D7); that no input is waiting is the model's (log entry 10). -/
def Obligations.ResetValues : Prop :=
  (∀ (c : Config) (prog : List Word), c.wf →
    (∀ i : RegIx, i ≠ SP → ((State.resetFor c prog).reg i).toNat = 0) ∧
    ((State.resetFor c prog).reg SP).toNat = c.stackSize ∧
    (State.resetFor c prog).pc.toNat = 0 ∧
    (∀ a, (State.resetFor c prog).mem.read a = 0) ∧
    (State.resetFor c prog).prog = prog ∧
    (State.resetFor c prog).run = .running ∧
    (State.resetFor c prog).output = [] ∧ (State.resetFor c prog).input = []) ∧
  State.reset.cfg.stackSize = 1024

/-- R150 with R132 and D5: an image whose length is a positive multiple of 4 and at most 4·2^29 bytes
starts the core in the reset state with the decoded program; an empty one does not start it. -/
def Obligations.BootStartsInReset : Prop :=
  (∀ (c : Config) (image : List Byte), image.length % 4 = 0 → 0 < image.length →
    image.length ≤ 4 * 2 ^ 29 →
    ∃ words, decodeImage c.byteOrder image = .ok words ∧ words ≠ [] ∧
      boot c image = .ok (State.resetFor c words)) ∧
  (∀ c : Config, boot c [] = .error .emptyImage)

/-- The invariant holds after reset, for every legal value of the parameters (R6, R39). -/
def Obligations.ResetMeetsInvariant : Prop :=
  (∀ (c : Config) (prog : List Word), c.wf → prog.length ≤ 2 ^ 29 → (State.resetFor c prog).Inv) ∧
  State.reset.Inv

/-! ## The step -/

/-- Every step keeps the invariant: legal parameters, a program of at most 2^29 words, canonical memory
inside [0, STACK_SIZE), and a run state whose recorded values agree with pc, SP and the bounds. -/
def Obligations.StepKeepsInvariant : Prop :=
  ∀ s t : State, s.Inv → step s = .next t → t.Inv

/-- R83, R85: where pc is a multiple of 4 below 4·N, a running core runs the instruction decoded from the
word at pc / 4. -/
def Obligations.StepRunsDecodedInstruction : Prop :=
  ∀ s : State, s.run = .running → s.pc.toNat % 4 = 0 → s.pc.toNat < 4 * s.prog.length →
    ∃ w, s.prog[s.pc.toNat / 4]? = some w ∧ s.current = some (decode s.cfg w) ∧
      step s = exec (decode s.cfg w) s

/-- The model's interface (log entries 5 and 6): the word placed by `withFetchWord` is what the next step
runs, in every state, and registers, memory, ports and parameters are as before. Where pc was a
multiple of 4 it is unchanged, and no other word of a longer program changes. -/
def Obligations.PlacedWordRunsNext : Prop :=
  ∀ (s : State) (nbits w : Nat),
    step (s.withFetchWord nbits w) =
      exec (decode s.cfg (BitVec.ofNat 32 (w % 2 ^ nbits))) (s.withFetchWord nbits w) ∧
    KeepsRegs [] s (s.withFetchWord nbits w) ∧ KeepsMem s (s.withFetchWord nbits w) ∧
    KeepsPorts s (s.withFetchWord nbits w) ∧ (s.withFetchWord nbits w).cfg = s.cfg ∧
    (s.pc.toNat % 4 = 0 → (s.withFetchWord nbits w).pc = s.pc) ∧
    (∀ k, k < s.prog.length → k ≠ s.pc.toNat / 4 → (s.withFetchWord nbits w).prog[k]? = s.prog[k]?)

/-- R80: at pc = 4·N the run halts and nothing else changes. -/
def Obligations.EndOfProgramHalts : Prop :=
  ∀ s : State, s.run = .running → s.pc.toNat = 4 * s.prog.length →
    ∃ t, step s = .next t ∧ t.run = .halted .endOfProgram ∧ OnlyRun s t

/-- R82, R135 (the fault is D14, its precision D15): a pc that is not a multiple of 4 or lies above 4·N
faults at the fetch, recording pc, and nothing else changes. -/
def Obligations.BadPcFaultsAtFetch : Prop :=
  ∀ s : State, s.run = .running → (s.pc.toNat % 4 ≠ 0 ∨ 4 * s.prog.length < s.pc.toNat) →
    ∃ t, step s = .next t ∧ t.run = .faulted (.fetchFault s.pc) ∧ OnlyRun s t

/-- R79: no step is enabled in an ended run, and `step` answers no next state there. -/
def Obligations.EndedRunTakesNoStep : Prop :=
  ∀ s : State, s.run ≠ .running → s.stepEnabled = false ∧ ∀ t, step s ≠ .next t

/-- A running core answers a next state: it never meets a fault outcome or a refusal of the model. Only
where a READ waits is no step enabled, and there nothing changes (R32, R130; the answer of the
model is log entry 9). -/
def Obligations.RunningCoreGoesOn : Prop :=
  ∀ s : State, s.run = .running → (∃ t, step s = .next t) ∧
    (s.stepEnabled = false → step s = .next s)

/-- R136, with the causes of R133 to R135 (decisions D9, D12, D14, D15): a step that faults changes
nothing but the run state, records the pc it faulted at, and its cause holds. -/
def Obligations.FaultsArePrecise : Prop :=
  ∀ (s t : State) (f : CoreFault), step s = .next t → t.run = .faulted f →
    OnlyRun s t ∧ f.atPc = s.pc ∧
    match f with
    | .registerFault _ index => 16 < index.toNat ∧ ∃ i, s.current = some i ∧ index ∈ i.usedRegs
    | .memoryFault _ addr => addr < 0 ∨ (s.cfg.stackSize : Int) - 4 < addr
    | .fetchFault _ => s.pc.toNat % 4 ≠ 0 ∨ 4 * s.prog.length < s.pc.toNat

/-- R88: a run ends in success in exactly two ways, and each changes only the run state. -/
def Obligations.ExactlyTwoWaysToHalt : Prop :=
  ∀ (s : State) (cause : HaltCause),
    ((∃ t, step s = .next t ∧ t.run = .halted cause) ↔
      s.run = .running ∧
        ((cause = .endOfProgram ∧ s.pc.toNat = 4 * s.prog.length) ∨
         (cause = .emptyStackReturn ∧ s.current = some .ret ∧
            s.reg SP = BitVec.ofNat 32 s.cfg.stackSize))) ∧
    ∀ t, step s = .next t → t.run = .halted cause → OnlyRun s t

/-- R29 (derived by the spec from R82): a step that does not fault began at a multiple of 4 in [0, 4·N]. -/
def Obligations.UnfaultedStepHadNormalPc : Prop :=
  ∀ s t : State, step s = .next t → t.safe = true →
    s.pc.toNat % 4 = 0 ∧ s.pc.toNat ≤ 4 * s.prog.length

/-- R35, R41, R57: no step changes the parameters or any word of the program. -/
def Obligations.ProgramAndParametersAreFixed : Prop :=
  ∀ s t : State, step s = .next t → KeepsFixed s t

/-- R127: the event stream is empty at reset; a step appends one event exactly where a PRINT of an
existing register runs, and removes or reorders none. -/
def Obligations.EventsAreOnlyAppended : Prop :=
  State.reset.output = [] ∧
  ∀ s t : State, step s = .next t →
    (∃ a : RegIx, s.current = some (.print (regField a)) ∧ t.output = s.output ++ [s.reg a]) ∨
    ((∀ a : RegIx, s.current ≠ some (.print (regField a))) ∧ t.output = s.output)

/-- R130: a step consumes an input value only where a READ runs; it takes the oldest, one, and puts it
in the named register. (That offered values form a queue is log entry 10.) -/
def Obligations.OnlyReadConsumesInput : Prop :=
  ∀ s t : State, step s = .next t →
    t.input = s.input ∨
    ∃ (a : RegIx) (v : Word), s.current = some (.read (regField a)) ∧ s.input = v :: t.input ∧
      t.reg a = v

/-- R94: where the instruction is no READ, the step does not depend on the input port. -/
def Obligations.OnlyReadDependsOnInput : Prop :=
  ∀ (s t : State) (q : List Word), (∀ r, s.current ≠ some (.read r)) → step s = .next t →
    step { s with input := q } = .next { t with input := q }

/-- R18, R19, R67: what each instruction may write. Registers other than the explicit destination and the
implicit ones are unchanged; memory is unchanged but for the 4 bytes at the address of a STORE,
PUSH or CALL. -/
def Obligations.InstructionsWriteOnlyTheirOwn : Prop :=
  ∀ (i : Instr) (s t : State), s.mem.wf → exec i s = .next t →
    (∀ j : RegIx, i.destination ≠ some (regField j) → j ∉ implicitWrites i → t.reg j = s.reg j) ∧
    (s.storeAddr i = none → KeepsMem s t) ∧
    (∀ a, s.storeAddr i = some a → KeepsMemOutside a s t)

/-! ## Registers, flags and the stack over a step -/

/-- R123 (derived by the spec): SP stays a multiple of 4 in [0, STACK_SIZE] over every step whose
instruction does not name register 6 as its destination. -/
def Obligations.StackPointerDiscipline : Prop :=
  ∀ s t : State, s.cfg.stackSizeOk → s.spDisciplined →
    (∀ i, s.current = some i → i.destination ≠ some (regField SP)) → step s = .next t →
    t.spDisciplined

/-- R24 and R19 (R24 derived by the spec): while no instruction names register 16 as its destination, F
keeps only the four bits of R22, and only CMP changes it. -/
def Obligations.FlagsDiscipline : Prop :=
  ∀ s t : State, (∀ i, s.current = some i → i.destination ≠ some (regField F)) → step s = .next t →
    (fourFlagBits (s.reg F) → fourFlagBits (t.reg F)) ∧
    ((∀ r1 r2, s.current ≠ some (.cmp r1 r2)) → t.reg F = s.reg F)

/-- R84, R133 (D12, D17): an instruction with a used field of 17 to 31 faults on the first such field, r1
before r2, whatever else would fault, wait or halt; with none, it raises no RegisterFault. -/
def Obligations.RegisterFieldCheck : Prop :=
  (∀ (i : Instr) (s : State) (f : RegField), i.usedRegs.find? (fun r => 16 < r.toNat) = some f →
    FaultsWith i s (.registerFault s.pc f)) ∧
  (∀ (i : Instr) (s t : State) (pc : Word) (f : RegField),
    i.usedRegs.find? (fun r => 16 < r.toNat) = none → exec i s = .next t →
    t.run = .faulted (.registerFault pc f) → s.run = t.run)

/-- R44, R45, R134 (D9, D15): every access outside [0, STACK_SIZE - 4] raises MemoryFault with its exact
address and changes nothing else: LOAD, STORE, PUSH, POP, CALL, and RET where it does not halt. -/
def Obligations.AccessOutOfBoundsFaults : Prop :=
  ∀ (s : State) (a : RegIx) (imm : BitVec 16),
    (¬ s.inBounds (s.slotAddr imm) →
      FaultsWith (.load (regField a) imm) s (.memoryFault s.pc (s.slotAddr imm)) ∧
      FaultsWith (.store (regField a) imm) s (.memoryFault s.pc (s.slotAddr imm))) ∧
    (¬ s.inBounds s.pushAddr →
      FaultsWith (.push (regField a)) s (.memoryFault s.pc s.pushAddr) ∧
      FaultsWith (.call imm) s (.memoryFault s.pc s.pushAddr)) ∧
    (¬ s.inBounds s.topAddr →
      FaultsWith (.pop (regField a)) s (.memoryFault s.pc s.topAddr) ∧
      (s.reg SP ≠ BitVec.ofNat 32 s.cfg.stackSize →
        FaultsWith .ret s (.memoryFault s.pc s.topAddr)))

/-- R49 (derived by the spec): reading SP - 4·imm with 32-bit wrap-around gives the same verdict and the
same address as the exact integer, for every legal STACK_SIZE. -/
def Obligations.WrappedAddressAgrees : Prop :=
  ∀ (s : State) (imm : BitVec 16), s.cfg.stackSizeOk →
    (s.inBounds (s.slotAddr imm) ↔ s.inBounds (s.reg SP - 4 * sextImm imm).toInt) ∧
    (s.inBounds (s.slotAddr imm) → s.slotAddr imm = (s.reg SP - 4 * sextImm imm).toInt)

/-- R54, R46: a word stored is read back by the next LOAD of the same slot, at any alignment. -/
def Obligations.StoreThenLoad : Prop :=
  ∀ (s : State) (a b : RegIx) (imm : BitVec 16), s.mem.wf → s.inBounds (s.slotAddr imm) →
    ∃ t u, exec (.store (regField a) imm) s = .next t ∧ exec (.load (regField b) imm) t = .next u ∧
      u.reg b = s.reg a ∧ OnlyRegsAndWord [b] (s.slotAddr imm) (s.reg a) s u

/-- R121, R122 (document §8 scenario C): POP after PUSH gives the pushed word and restores SP. -/
def Obligations.PushThenPop : Prop :=
  ∀ (s : State) (a b : RegIx), a ≠ SP → b ≠ SP → s.mem.wf → s.inBounds s.pushAddr →
    ∃ t u, exec (.push (regField a)) s = .next t ∧ exec (.pop (regField b)) t = .next u ∧
      u.reg b = s.reg a ∧ u.reg SP = s.reg SP ∧ KeepsRegs [b] s u

/-- R119, R120 (document §8 call/return symmetry): from wherever the callee left pc, with SP and memory
as the CALL left them, RET returns to the instruction after the CALL and restores SP. -/
def Obligations.CallThenReturn : Prop :=
  ∀ (s : State) (imm : BitVec 16) (p : Word), s.cfg.stackSizeOk → s.mem.wf →
    s.inBounds s.pushAddr →
    ∃ t u, exec (.call imm) s = .next t ∧ AtTarget s t imm ∧ exec .ret (t.setPc p) = .next u ∧
      u.pc = s.pc + 4 ∧ KeepsRegs [] s u ∧ u.run = s.run

/-- R116 (derived by the spec): what the five branches decide after CMP, with a = x[B] and b = x[A] as
they were before it. -/
def Obligations.BranchesAfterCompare : Prop :=
  ∀ (s t : State) (ra rb : RegIx) (imm : BitVec 16),
    exec (.cmp (regField ra) (regField rb)) s = .next t →
    ∃ tE tL tLE tGE tBE,
      exec (.je imm) t = .next tE ∧ exec (.jl imm) t = .next tL ∧ exec (.jle imm) t = .next tLE ∧
      exec (.jge imm) t = .next tGE ∧ exec (.jbe imm) t = .next tBE ∧
      tE.pc = (if s.reg rb = s.reg ra then t.pc + sextImm imm + 4 else t.pc + 4) ∧
      tL.pc = (if (s.reg rb).toInt < (s.reg ra).toInt then t.pc + sextImm imm + 4 else t.pc + 4) ∧
      tLE.pc = (if (s.reg rb).toInt ≤ (s.reg ra).toInt then t.pc + sextImm imm + 4 else t.pc + 4) ∧
      tGE.pc = (if (s.reg ra).toInt ≤ (s.reg rb).toInt then t.pc + sextImm imm + 4 else t.pc + 4) ∧
      tBE.pc = (if (s.reg rb).toNat ≤ (s.reg ra).toNat then t.pc + sextImm imm + 4 else t.pc + 4)

/-- R23 (derived by the spec), its reads: a conditional branch depends on bits 0, 6, 7 and 11 of F alone. -/
def Obligations.BranchesReadFourBits : Prop :=
  ∀ (s : State) (f g : Word) (imm : BitVec 16),
    f.getLsbD 0 = g.getLsbD 0 → f.getLsbD 6 = g.getLsbD 6 → f.getLsbD 7 = g.getLsbD 7 →
    f.getLsbD 11 = g.getLsbD 11 →
    ∀ i, i ∈ [Instr.je imm, .jl imm, .jle imm, .jge imm, .jbe imm] →
      ∃ t u, exec i (s.setReg F f) = .next t ∧ exec i (s.setReg F g) = .next u ∧ t.pc = u.pc

/-! ## ALU instructions (41_alu.md) -/

/-- SUBI, R97 (the wrap is D13): the exact difference with the signed immediate, modulo 2^32. -/
def Obligations.SubiSubtractsImmediate : Prop :=
  DecodesTo .subi (fun f => .subi f.r1 f.imm16) ∧
  (∀ (s : State) (a : RegIx) (imm : BitVec 16), ∃ t, exec (.subi (regField a) imm) s = .next t ∧
    t.reg a = BitVec.ofInt 32 ((s.reg a).toInt - imm.toInt) ∧ t.pc = s.pc + 4 ∧ OnlyRegs [a] s t) ∧
  ∀ imm, ChecksField (fun r => .subi r imm)

/-- ADD, R98 (the wrap is D13): the second field is the destination. -/
def Obligations.AddAddsIntoSecond : Prop :=
  DecodesTo .add (fun f => .add f.r1 f.r2) ∧
  (∀ (s : State) (a b : RegIx), ∃ t, exec (.add (regField a) (regField b)) s = .next t ∧
    t.reg b = BitVec.ofInt 32 ((s.reg b).toInt + (s.reg a).toInt) ∧ t.pc = s.pc + 4 ∧
    OnlyRegs [b] s t) ∧
  ChecksFields .add

/-- ADDI, R99 (the wrap is D13). -/
def Obligations.AddiAddsImmediate : Prop :=
  DecodesTo .addi (fun f => .addi f.r1 f.imm16) ∧
  (∀ (s : State) (a : RegIx) (imm : BitVec 16), ∃ t, exec (.addi (regField a) imm) s = .next t ∧
    t.reg a = BitVec.ofInt 32 ((s.reg a).toInt + imm.toInt) ∧ t.pc = s.pc + 4 ∧ OnlyRegs [a] s t) ∧
  ∀ imm, ChecksField (fun r => .addi r imm)

/-- MUL, R100: the low 32 bits of the product, the same for signed and unsigned readings. -/
def Obligations.MulKeepsLowWord : Prop :=
  DecodesTo .mul (fun f => .mul f.r1 f.r2) ∧
  (∀ (s : State) (a b : RegIx), ∃ t, exec (.mul (regField a) (regField b)) s = .next t ∧
    t.reg b = BitVec.ofInt 32 ((s.reg a).toInt * (s.reg b).toInt) ∧
    (t.reg b).toNat = (s.reg a).toNat * (s.reg b).toNat % 2 ^ 32 ∧ t.pc = s.pc + 4 ∧
    OnlyRegs [b] s t) ∧
  ChecksFields .mul

/-- SHR, R101: the logical right shift by one is halving, rounded down; it equals the document's
`(reg >> 1) & 0x7fffffff` under either reading of `>>`. -/
def Obligations.ShrHalves : Prop :=
  DecodesTo .shr (fun f => .shr f.r1) ∧
  (∀ (s : State) (a : RegIx), ∃ t, exec (.shr (regField a)) s = .next t ∧
    (t.reg a).toNat = (s.reg a).toNat / 2 ∧
    t.reg a = (s.reg a >>> 1) &&& 0x7fffffff#32 ∧
    t.reg a = ((s.reg a).sshiftRight 1) &&& 0x7fffffff#32 ∧ t.pc = s.pc + 4 ∧ OnlyRegs [a] s t) ∧
  ChecksField .shr

/-! ## Move instructions (42_move.md) -/

/-- MOV, R104: the first field is the source, the second the destination. -/
def Obligations.MovCopiesFirstIntoSecond : Prop :=
  DecodesTo .mov (fun f => .mov f.r1 f.r2) ∧
  (∀ (s : State) (a b : RegIx), ∃ t, exec (.mov (regField a) (regField b)) s = .next t ∧
    t.reg b = s.reg a ∧ t.pc = s.pc + 4 ∧ OnlyRegs [b] s t) ∧
  ChecksFields .mov

/-- LOAD, R105 (the bounds are D9, the exact address D11, the byte order D3): the little-endian word at
s32(SP) - 4·s32(imm), with the old SP even where SP is the destination. -/
def Obligations.LoadReadsSlot : Prop :=
  DecodesTo .load (fun f => .load f.r2 f.imm16) ∧
  (∀ (s : State) (imm : BitVec 16), s.slotAddr imm = (s.reg SP).toInt - 4 * imm.toInt) ∧
  (∀ (s : State) (b : RegIx) (imm : BitVec 16), s.inBounds (s.slotAddr imm) →
    ∃ t, exec (.load (regField b) imm) s = .next t ∧
      (∀ k, k < 4 → (t.reg b).extractLsb' (8 * k) 8 = s.mem.read ((s.slotAddr imm).toNat + k)) ∧
      t.pc = s.pc + 4 ∧ OnlyRegs [b] s t) ∧
  ∀ imm, ChecksField (fun r => .load r imm)

/-- STORE, R106 (the bounds are D9, the exact address D11, the byte order D3). -/
def Obligations.StoreWritesSlot : Prop :=
  DecodesTo .store (fun f => .store f.r1 f.imm16) ∧
  (∀ (s : State) (a : RegIx) (imm : BitVec 16), s.mem.wf → s.inBounds (s.slotAddr imm) →
    ∃ t, exec (.store (regField a) imm) s = .next t ∧ t.pc = s.pc + 4 ∧
      OnlyRegsAndWord [] (s.slotAddr imm) (s.reg a) s t) ∧
  ∀ imm, ChecksField (fun r => .store r imm)

/-- MOVI, R107: the sign-extended immediate. -/
def Obligations.MoviLoadsSignedImmediate : Prop :=
  DecodesTo .movi (fun f => .movi f.r1 f.imm16) ∧
  (∀ (s : State) (a : RegIx) (imm : BitVec 16), ∃ t, exec (.movi (regField a) imm) s = .next t ∧
    (t.reg a).toInt = imm.toInt ∧ t.pc = s.pc + 4 ∧ OnlyRegs [a] s t) ∧
  ∀ imm, ChecksField (fun r => .movi r imm)

/-! ## Compare and branch (43_compare_branch.md) -/

/-- CMP, R109 and R22: the four flags of x[r2] - x[r1], every other bit of F 0, both sources read before F
is written. -/
def Obligations.CmpWritesFlags : Prop :=
  DecodesTo .cmp (fun f => .cmp f.r1 f.r2) ∧
  (∀ (s : State) (ra rb : RegIx), ∃ t, exec (.cmp (regField ra) (regField rb)) s = .next t ∧
    ((t.reg F).getLsbD 0 = true ↔ (s.reg rb).toNat < (s.reg ra).toNat) ∧
    ((t.reg F).getLsbD 6 = true ↔ s.reg rb - s.reg ra = 0) ∧
    (t.reg F).getLsbD 7 = (s.reg rb - s.reg ra).getLsbD 31 ∧
    ((t.reg F).getLsbD 11 = true ↔
      (s.reg rb).toInt - (s.reg ra).toInt < -2 ^ 31 ∨
      2 ^ 31 - 1 < (s.reg rb).toInt - (s.reg ra).toInt) ∧
    fourFlagBits (t.reg F) ∧ t.pc = s.pc + 4 ∧ OnlyRegs [F] s t) ∧
  ChecksFields .cmp

/-- JE, R110: taken iff ZF. -/
def Obligations.JeTakenOnZero : Prop :=
  DecodesTo .je (fun f => .je f.imm16) ∧ BranchesWhen (fun f => f.getLsbD 6 = true) .je

/-- JL, R111: taken iff SF xor OF. -/
def Obligations.JlTakenOnSignXorOverflow : Prop :=
  DecodesTo .jl (fun f => .jl f.imm16) ∧ BranchesWhen (fun f => f.getLsbD 7 ≠ f.getLsbD 11) .jl

/-- JLE, R112: taken iff (SF xor OF) or ZF. -/
def Obligations.JleTakenOnLessOrZero : Prop :=
  DecodesTo .jle (fun f => .jle f.imm16) ∧
  BranchesWhen (fun f => f.getLsbD 7 ≠ f.getLsbD 11 ∨ f.getLsbD 6 = true) .jle

/-- JGE, R113: taken iff not (SF xor OF). -/
def Obligations.JgeTakenOnSignEqualsOverflow : Prop :=
  DecodesTo .jge (fun f => .jge f.imm16) ∧ BranchesWhen (fun f => f.getLsbD 7 = f.getLsbD 11) .jge

/-- JBE, R114: taken iff ZF or CF. -/
def Obligations.JbeTakenOnZeroOrCarry : Prop :=
  DecodesTo .jbe (fun f => .jbe f.imm16) ∧
  BranchesWhen (fun f => f.getLsbD 6 = true ∨ f.getLsbD 0 = true) .jbe

/-- JMP, R115 with R91: always taken. -/
def Obligations.JmpAlwaysTaken : Prop :=
  DecodesTo .jmp (fun f => .jmp f.imm16) ∧
  ∀ (s : State) (imm : BitVec 16), ∃ t, exec (.jmp imm) s = .next t ∧ AtTarget s t imm ∧
    OnlyRegs [] s t

/-! ## Call, return and stack (44_call_stack.md) -/

/-- CALL, R119 (the bounds are D9, the byte order D3, the 32-bit pc D6). -/
def Obligations.CallPushesReturnAddress : Prop :=
  DecodesTo .call (fun f => .call f.imm16) ∧
  (∀ s : State, s.pushAddr = (s.reg SP - 4).toInt) ∧
  ∀ (s : State) (imm : BitVec 16), s.mem.wf → s.inBounds s.pushAddr →
    ∃ t, exec (.call imm) s = .next t ∧ t.reg SP = s.reg SP - 4 ∧ AtTarget s t imm ∧
      OnlyRegsAndWord [SP] s.pushAddr (s.pc + 4) s t

/-- RET, R120 (the bounds are D9, the byte order D3, the 32-bit pc D6): it halts exactly at SP = SP_INIT,
and elsewhere pops the word at SP into pc. -/
def Obligations.RetHaltsOrPops : Prop :=
  DecodesTo .ret (fun _ => .ret) ∧
  (∀ s : State, s.topAddr = (s.reg SP).toInt) ∧
  (∀ s : State, s.reg SP = BitVec.ofNat 32 s.cfg.stackSize →
    ∃ t, exec .ret s = .next t ∧ t.run = .halted .emptyStackReturn ∧ OnlyRun s t) ∧
  (∀ s : State, s.reg SP ≠ BitVec.ofNat 32 s.cfg.stackSize → s.inBounds s.topAddr →
    ∃ t, exec .ret s = .next t ∧
      (∀ k, k < 4 → t.pc.extractLsb' (8 * k) 8 = s.mem.read (s.topAddr.toNat + k)) ∧
      t.reg SP = s.reg SP + 4 ∧ OnlyRegs [SP] s t)

/-- PUSH, R121 (the bounds are D9, the byte order D3): PUSH r6 stores the decremented SP (D18). -/
def Obligations.PushStoresBelowSp : Prop :=
  DecodesTo .push (fun f => .push f.r1) ∧
  (∀ (s : State) (a : RegIx), s.mem.wf → s.inBounds s.pushAddr →
    ∃ t, exec (.push (regField a)) s = .next t ∧ t.reg SP = s.reg SP - 4 ∧ t.pc = s.pc + 4 ∧
      OnlyRegsAndWord [SP] s.pushAddr (if a = SP then s.reg SP - 4 else s.reg a) s t) ∧
  ChecksField .push

/-- POP, R122 (the bounds are D9, the byte order D3): POP r6 leaves the popped word plus 4 (D18), and the
popped bytes stay in memory. -/
def Obligations.PopLoadsAboveSp : Prop :=
  DecodesTo .pop (fun f => .pop f.r1) ∧
  (∀ (s : State) (a : RegIx), s.inBounds s.topAddr →
    ∃ t v, exec (.pop (regField a)) s = .next t ∧
      (∀ k, k < 4 → v.extractLsb' (8 * k) 8 = s.mem.read (s.topAddr.toNat + k)) ∧
      (a ≠ SP → t.reg a = v ∧ t.reg SP = s.reg SP + 4) ∧ (a = SP → t.reg SP = v + 4) ∧
      t.pc = s.pc + 4 ∧ OnlyRegs [a, SP] s t) ∧
  ChecksField .pop

/-! ## I/O and NOP (45_io_and_nop.md) -/

/-- PRINT, R128: one event, the register's word, at the end of the stream; nothing else but pc. -/
def Obligations.PrintEmitsRegister : Prop :=
  DecodesTo .print (fun f => .print f.r1) ∧
  (∀ (s : State) (a : RegIx), ∃ t, exec (.print (regField a)) s = .next t ∧
    t.output = s.output ++ [s.reg a] ∧ t.input = s.input ∧ t.pc = s.pc + 4 ∧ KeepsRegs [] s t ∧
    KeepsMem s t ∧ KeepsFixed s t ∧ t.run = s.run) ∧
  ChecksField .print

/-- READ, R130 (D19): it takes the oldest offered value; with none it waits and nothing changes (that the
model answers the same state is log entry 9). -/
def Obligations.ReadTakesOldestInput : Prop :=
  DecodesTo .read (fun f => .read f.r1) ∧
  (∀ (s : State) (a : RegIx) (v : Word) (rest : List Word), s.input = v :: rest →
    ∃ t, exec (.read (regField a)) s = .next t ∧ t.reg a = v ∧ t.input = rest ∧
      t.output = s.output ∧ t.pc = s.pc + 4 ∧ KeepsRegs [a] s t ∧ KeepsMem s t ∧ KeepsFixed s t ∧
      t.run = s.run) ∧
  (∀ (s : State) (a : RegIx), s.input = [] → exec (.read (regField a)) s = .next s) ∧
  ChecksField .read

/-- NOP, R131 with R68: a word of an unassigned opcode only advances pc, whatever its other bits. -/
def Obligations.UnassignedOpcodeIsNop : Prop :=
  ∀ (c : Config) (w : Word), (∀ op, c.opcodeOf op ≠ (fieldsOf w).opc) →
    ∀ s : State, ∃ t, exec (decode c w) s = .next t ∧ t.pc = s.pc + 4 ∧ OnlyRegs [] s t
end

