-- ==== Sys2Proof/Laws/Boundary.lean ====
section
/-! SUPPORT. What offering input at the boundary does. -/

namespace Sys2Proof.Machine

/-- A stream read from its first token is that token, if it has a value, and then the rest. -/
theorem offerTokens_cons (s : State) (token : Option Int) (rest : List (Option Int)) :
    s.offerTokens (token :: rest) =
      if (tokenValue token).isSome then (s.offerToken token).offerTokens rest else s := by
  cases h : tokenValue token <;> simp [State.offerTokens, State.offerToken, h]

/-- Nothing from the first token without a value on is offered (D19, log entry 15). -/
theorem offerTokens_stops (s : State) (before after : List (Option Int)) {bad : Option Int}
    (h : tokenValue bad = none) : s.offerTokens (before ++ bad :: after) = s.offerTokens before := by
  induction before generalizing s with
  | nil => simp [State.offerTokens, h]
  | cons token rest ih => simp only [List.cons_append, offerTokens_cons, ih]

end Sys2Proof.Machine
end

