-- ==== Sys2Proof/Laws/Encoding.lean ====
section
/-! SUPPORT. Fields out of packed words, opcode values and operations, bytes and words. -/

namespace Sys2Proof

/-! ## Fields -/

/-- The fields of a packed word are the fields packed (R60, R73). -/
@[simp] theorem fieldsOf_packFields (f : Fields) : fieldsOf (packFields f) = f := by
  obtain ⟨opc, r1, r2, imm⟩ := f
  simp only [fieldsOf, packFields, Fields.mk.injEq]
  refine ⟨?_, ?_, ?_, ?_⟩ <;> apply BitVec.eq_of_getLsbD_eq <;> intro i hi <;>
    simp only [BitVec.getLsbD_extractLsb', BitVec.getLsbD_append]
  · simp [hi, show ¬ 27 + i < 16 by omega, show ¬ 27 + i - 16 < 1 by omega,
      show ¬ 27 + i - 16 - 1 < 5 by omega, show ¬ 27 + i - 16 - 1 - 5 < 5 by omega,
      show 27 + i - 16 - 1 - 5 - 5 = i by omega]
  · simp [hi, show ¬ 22 + i < 16 by omega, show ¬ 22 + i - 16 < 1 by omega,
      show ¬ 22 + i - 16 - 1 < 5 by omega,
      show 22 + i - 16 - 1 - 5 = i by omega]
  · simp [hi, show ¬ 17 + i < 16 by omega, show ¬ 17 + i - 16 < 1 by omega,
      show 17 + i - 16 - 1 = i by omega]
  · simp [hi]

/-- Bit 16 of a packed word is 0 (R73). -/
@[simp] theorem packFields_bit16 (f : Fields) : (packFields f).getLsbD 16 = false := by
  rw [packFields, BitVec.getLsbD_append, BitVec.getLsbD_append]
  simp

/-! ## Opcodes -/

theorem Op.mem_all (op : Op) : op ∈ Op.all := by cases op <;> decide

/-- An injective `OPCODE_OF` (R66). -/
theorem opcodeOf_inj {c : Config} (h : c.opcodesOk) {x y : Op} (hxy : c.opcodeOf x = c.opcodeOf y) :
    x = y :=
  List.inj_on_of_nodup_map h (Op.mem_all x) (Op.mem_all y) hxy

theorem operationOf_some {c : Config} {opc : BitVec 5} {op : Op} (h : c.operationOf opc = some op) :
    c.opcodeOf op = opc := by
  have := List.find?_some h
  simpa using this

theorem operationOf_opcodeOf {c : Config} (h : c.opcodesOk) (op : Op) :
    c.operationOf (c.opcodeOf op) = some op := by
  cases hf : c.operationOf (c.opcodeOf op) with
  | none =>
    have := List.find?_eq_none.1 hf op (Op.mem_all op)
    simp at this
  | some x => rw [opcodeOf_inj h (operationOf_some hf)]

/-- An opcode value has no operation iff `OPCODE_OF` does not assign it (R68). -/
theorem operationOf_none {c : Config} {opc : BitVec 5} :
    c.operationOf opc = none ↔ c.unassigned opc = true := by
  simp [Config.operationOf, Config.unassigned]

@[simp] theorem instrOf_op (op : Op) (f : Fields) : (instrOf op f).op = some op := by
  cases op <;> rfl

@[simp] theorem instrOf_wellFormed (c : Config) (op : Op) (f : Fields) :
    (instrOf op f).wellFormed c = true := by
  cases op <;> rfl

theorem decode_of_operation {c : Config} {w : Word} {op : Op}
    (h : c.operationOf (fieldsOf w).opc = some op) : decode c w = instrOf op (fieldsOf w) := by
  simp [decode, h]

theorem decode_of_unassigned {c : Config} {w : Word} (h : c.operationOf (fieldsOf w).opc = none) :
    decode c w = .nop (fieldsOf w).opc := by
  simp [decode, h]

/-- A packed record of fields decodes by its opcode. -/
theorem decode_packFields (c : Config) (f : Fields) :
    decode c (packFields f) =
      match c.operationOf f.opc with
      | some op => instrOf op f
      | none => .nop f.opc := by
  simp only [decode, fieldsOf_packFields] <;> rfl

/-! ## Bytes and words -/

/-- The 4 bytes of a word put together again. -/
theorem bytes_append (v : Word) :
    (v.extractLsb' 24 8 ++ v.extractLsb' 16 8 ++ v.extractLsb' 8 8 ++ v.extractLsb' 0 8 : Word) = v := by
  apply BitVec.eq_of_getLsbD_eq
  intro i hi
  simp only [BitVec.getLsbD_append, BitVec.getLsbD_extractLsb']
  by_cases h0 : i < 8
  · simp [h0]
  · by_cases h1 : i < 16
    · simp [h0, show i - 8 < 8 by omega, show 8 + (i - 8) = i by omega]
    · by_cases h2 : i < 24
      · simp [h0, show ¬ i - 8 < 8 by omega, show i - 8 - 8 < 8 by omega,
          show 16 + (i - 8 - 8) = i by omega]
      · simp [h0, show ¬ i - 8 < 8 by omega, show ¬ i - 8 - 8 < 8 by omega,
          show i - 8 - 8 - 8 < 8 by omega, show 24 + (i - 8 - 8 - 8) = i by omega]

/-- Bytes of a word put together again, in either order (R64). -/
theorem decodeImage_bytesOfWord_append (o : ByteOrder) (w : Word) (rest : List Byte) :
    decodeImage o (bytesOfWord o w ++ rest) =
      match decodeImage o rest with
      | .ok ws => .ok (w :: ws)
      | .error e => .error e := by
  cases o <;> simp only [bytesOfWord, List.cons_append, List.nil_append, decodeImage, wordOfBytes,
    bytes_append] <;> rfl

end Sys2Proof
end

