-- ==== Sys2Proof/Laws/State.lean ====
section
/-! SUPPORT. One lemma per field per update, so that no proof unfolds a record update. -/

namespace Sys2Proof.Machine

section setReg
variable (s : State) (i : RegIx) (v : Word)
@[simp] theorem setReg_cfg : (s.setReg i v).cfg = s.cfg := rfl
@[simp] theorem setReg_pc : (s.setReg i v).pc = s.pc := rfl
@[simp] theorem setReg_run : (s.setReg i v).run = s.run := rfl
@[simp] theorem setReg_mem : (s.setReg i v).mem = s.mem := rfl
@[simp] theorem setReg_prog : (s.setReg i v).prog = s.prog := rfl
@[simp] theorem setReg_input : (s.setReg i v).input = s.input := rfl
@[simp] theorem setReg_output : (s.setReg i v).output = s.output := rfl

theorem reg_setReg (j : RegIx) : (s.setReg i v).reg j = if j = i then v else s.reg j := by
  simp only [State.reg, State.setReg, Vector.get_eq_getElem, Vector.getElem_set, Fin.ext_iff,
    eq_comm (a := i.val)]

@[simp] theorem reg_setReg_same : (s.setReg i v).reg i = v := by simp [reg_setReg]

theorem reg_setReg_ne {j : RegIx} (h : j ≠ i) : (s.setReg i v).reg j = s.reg j := by
  simp [reg_setReg, h]
end setReg

section setPc
variable (s : State) (p : Word)
@[simp] theorem setPc_cfg : (s.setPc p).cfg = s.cfg := rfl
@[simp] theorem setPc_reg (i : RegIx) : (s.setPc p).reg i = s.reg i := rfl
@[simp] theorem setPc_pc : (s.setPc p).pc = p := rfl
@[simp] theorem setPc_run : (s.setPc p).run = s.run := rfl
@[simp] theorem setPc_mem : (s.setPc p).mem = s.mem := rfl
@[simp] theorem setPc_prog : (s.setPc p).prog = s.prog := rfl
@[simp] theorem setPc_input : (s.setPc p).input = s.input := rfl
@[simp] theorem setPc_output : (s.setPc p).output = s.output := rfl
end setPc

section advance
variable (s : State)
@[simp] theorem advance_cfg : s.advance.cfg = s.cfg := rfl
@[simp] theorem advance_reg (i : RegIx) : s.advance.reg i = s.reg i := rfl
@[simp] theorem advance_pc : s.advance.pc = s.pc + 4 := rfl
@[simp] theorem advance_run : s.advance.run = s.run := rfl
@[simp] theorem advance_mem : s.advance.mem = s.mem := rfl
@[simp] theorem advance_prog : s.advance.prog = s.prog := rfl
@[simp] theorem advance_input : s.advance.input = s.input := rfl
@[simp] theorem advance_output : s.advance.output = s.output := rfl
end advance

section takeFault
variable (s : State) (f : CoreFault)
@[simp] theorem takeFault_cfg : (s.takeFault f).cfg = s.cfg := rfl
@[simp] theorem takeFault_reg (i : RegIx) : (s.takeFault f).reg i = s.reg i := rfl
@[simp] theorem takeFault_pc : (s.takeFault f).pc = s.pc := rfl
@[simp] theorem takeFault_run : (s.takeFault f).run = .faulted f := rfl
@[simp] theorem takeFault_mem : (s.takeFault f).mem = s.mem := rfl
@[simp] theorem takeFault_prog : (s.takeFault f).prog = s.prog := rfl
@[simp] theorem takeFault_input : (s.takeFault f).input = s.input := rfl
@[simp] theorem takeFault_output : (s.takeFault f).output = s.output := rfl
end takeFault

section halt
variable (s : State) (c : HaltCause)
@[simp] theorem halt_cfg : (s.halt c).cfg = s.cfg := rfl
@[simp] theorem halt_reg (i : RegIx) : (s.halt c).reg i = s.reg i := rfl
@[simp] theorem halt_pc : (s.halt c).pc = s.pc := rfl
@[simp] theorem halt_run : (s.halt c).run = .halted c := rfl
@[simp] theorem halt_mem : (s.halt c).mem = s.mem := rfl
@[simp] theorem halt_prog : (s.halt c).prog = s.prog := rfl
@[simp] theorem halt_input : (s.halt c).input = s.input := rfl
@[simp] theorem halt_output : (s.halt c).output = s.output := rfl
end halt

section emit
variable (s : State) (v : Word)
@[simp] theorem emit_cfg : (s.emit v).cfg = s.cfg := rfl
@[simp] theorem emit_reg (i : RegIx) : (s.emit v).reg i = s.reg i := rfl
@[simp] theorem emit_pc : (s.emit v).pc = s.pc := rfl
@[simp] theorem emit_run : (s.emit v).run = s.run := rfl
@[simp] theorem emit_mem : (s.emit v).mem = s.mem := rfl
@[simp] theorem emit_prog : (s.emit v).prog = s.prog := rfl
@[simp] theorem emit_input : (s.emit v).input = s.input := rfl
@[simp] theorem emit_output : (s.emit v).output = s.output ++ [v] := rfl
end emit

section popInto
variable (s : State) (a : RegIx) (v : Word)
@[simp] theorem popInto_cfg : (s.popInto a v).cfg = s.cfg := rfl
@[simp] theorem popInto_pc : (s.popInto a v).pc = s.pc := rfl
@[simp] theorem popInto_run : (s.popInto a v).run = s.run := rfl
@[simp] theorem popInto_mem : (s.popInto a v).mem = s.mem := rfl
@[simp] theorem popInto_prog : (s.popInto a v).prog = s.prog := rfl
@[simp] theorem popInto_input : (s.popInto a v).input = s.input := rfl
@[simp] theorem popInto_output : (s.popInto a v).output = s.output := rfl

theorem popInto_reg (j : RegIx) :
    (s.popInto a v).reg j =
      if j = SP then (if SP = a then v else s.reg SP) + 4 else if j = a then v else s.reg j := by
  simp [State.popInto, reg_setReg]
end popInto

section withMem
variable (s : State) (m : Memory)
@[simp] theorem withMem_reg (i : RegIx) : State.reg { s with mem := m } i = s.reg i := rfl
@[simp] theorem withMem_pushedSp : State.pushedSp { s with mem := m } = s.pushedSp := rfl
end withMem

section withInputField
variable (s : State) (q : List Word)
@[simp] theorem withInputs_reg (i : RegIx) : State.reg { s with input := q } i = s.reg i := rfl
end withInputField

/-! ## Reset (R39) -/

section reset
variable (c : Config) (p : List Word)
@[simp] theorem resetFor_cfg : (State.resetFor c p).cfg = c := rfl
@[simp] theorem resetFor_pc : (State.resetFor c p).pc = 0 := rfl
@[simp] theorem resetFor_run : (State.resetFor c p).run = .running := rfl
@[simp] theorem resetFor_mem : (State.resetFor c p).mem = [] := rfl
@[simp] theorem resetFor_prog : (State.resetFor c p).prog = p := rfl
@[simp] theorem resetFor_input : (State.resetFor c p).input = [] := rfl
@[simp] theorem resetFor_output : (State.resetFor c p).output = [] := rfl

theorem resetFor_reg (i : RegIx) :
    (State.resetFor c p).reg i = if i = SP then BitVec.ofNat 32 c.stackSize else 0 := by
  simp only [State.reg, State.resetFor, Vector.get_eq_getElem, Vector.getElem_set,
    Vector.getElem_replicate, Fin.ext_iff, eq_comm (a := (SP : RegIx).val)]
end reset

/-! ## Placing a word for the fetch -/

section placeWord
variable (s : State) (w : Word)
@[simp] theorem placeWord_cfg : (s.placeWord w).cfg = s.cfg := rfl
@[simp] theorem placeWord_reg (i : RegIx) : (s.placeWord w).reg i = s.reg i := rfl
@[simp] theorem placeWord_run : (s.placeWord w).run = .running := rfl
@[simp] theorem placeWord_mem : (s.placeWord w).mem = s.mem := rfl
@[simp] theorem placeWord_input : (s.placeWord w).input = s.input := rfl
@[simp] theorem placeWord_output : (s.placeWord w).output = s.output := rfl
end placeWord

end Sys2Proof.Machine
end

