-- ==== Sys2Proof/Laws/Flags.lean ====
section
/-! SUPPORT. The bits of the flags word that CMP writes, and what the branch conditions mean after it. -/

namespace Sys2Proof.Machine

@[simp] theorem flagCF_packFlags (c z s o : Bool) : flagCF (packFlags c z s o) = c := by
  cases c <;> cases z <;> cases s <;> cases o <;> rfl

@[simp] theorem flagZF_packFlags (c z s o : Bool) : flagZF (packFlags c z s o) = z := by
  cases c <;> cases z <;> cases s <;> cases o <;> rfl

@[simp] theorem flagSF_packFlags (c z s o : Bool) : flagSF (packFlags c z s o) = s := by
  cases c <;> cases z <;> cases s <;> cases o <;> rfl

@[simp] theorem flagOF_packFlags (c z s o : Bool) : flagOF (packFlags c z s o) = o := by
  cases c <;> cases z <;> cases s <;> cases o <;> rfl

/-- The other 28 bits are 0 (R22). -/
theorem fourFlagBits_packFlags (c z s o : Bool) : fourFlagBits (packFlags c z s o) := by
  intro k h0 h6 h7 h11
  by_cases hk : k < 12
  · cases c <;> cases z <;> cases s <;> cases o <;> interval_cases k <;> first | rfl | contradiction
  · rw [packFlags, BitVec.getLsbD_setWidth]
    simp [BitVec.getLsbD_of_ge _ k (by omega : 12 ≤ k)]

theorem fourFlagBits_cmpFlags (a b : Word) : fourFlagBits (cmpFlags a b) :=
  fourFlagBits_packFlags _ _ _ _

/-- The exact signed difference of two words, from the 32-bit one. -/
theorem sub_toInt_cases (a b : Word) :
    (a - b).toInt = a.toInt - b.toInt ∨ (a - b).toInt = a.toInt - b.toInt + 2 ^ 32 ∨
      (a - b).toInt = a.toInt - b.toInt - 2 ^ 32 := by
  have ha := BitVec.toInt_lt (x := a)
  have ha' := BitVec.le_toInt (x := a)
  have hb := BitVec.toInt_lt (x := b)
  have hb' := BitVec.le_toInt (x := b)
  rw [BitVec.toInt_sub, Int.bmod_def]
  norm_num at *
  omega

theorem getLsbD_31_iff (v : Word) : v.getLsbD 31 = decide (v.toInt < 0) := by
  have := BitVec.msb_eq_toInt (x := v)
  rw [← this, BitVec.msb_eq_getLsbD_last]

/-- SF xor OF is set iff the exact signed difference is negative (R116). -/
theorem cmpSF_xor_cmpOF (a b : Word) : (cmpSF a b ^^ cmpOF a b) = decide (a.toInt < b.toInt) := by
  have hd := sub_toInt_cases a b
  have ha := BitVec.toInt_lt (x := a)
  have ha' := BitVec.le_toInt (x := a)
  have hb := BitVec.toInt_lt (x := b)
  have hb' := BitVec.le_toInt (x := b)
  have hl := BitVec.toInt_lt (x := a - b)
  have hl' := BitVec.le_toInt (x := a - b)
  norm_num at ha ha' hb hb' hl hl' hd
  rw [cmpSF, getLsbD_31_iff, cmpOF]
  norm_num
  by_cases h1 : (a - b).toInt < 0 <;> by_cases h2 : a.toInt < b.toInt <;>
    by_cases h3 : a.toInt - b.toInt < -2147483648 <;>
    by_cases h4 : 2147483647 < a.toInt - b.toInt <;> simp [h2, h3, h4] <;> omega

theorem cmpZF_iff (a b : Word) : cmpZF a b = decide (a = b) := by
  have : a - b = 0 ↔ a = b := by
    constructor
    · intro h
      exact sub_eq_zero.1 h
    · rintro rfl
      exact sub_self a
  rw [cmpZF, Bool.eq_iff_iff]
  simpa using this

end Sys2Proof.Machine
end

