-- ==== Sys2Proof/Laws/Memory.lean ====
section
/-! SUPPORT. Laws of memory: read over write, the canonical form, words over bytes. -/

namespace Sys2Proof.Machine

/-- An address below every listed one reads as unlisted. -/
theorem Memory.read_of_below {m : Memory} {a : Nat} (h : ∀ c ∈ m, a < c.1) :
    m.read a = unlistedByte := by
  induction m with
  | nil => rfl
  | cons c rest ih =>
    have hc := h c (by simp)
    rw [Memory.read, if_neg (by omega)]
    exact ih fun d hd => h d (by simp [hd])

theorem Memory.wf_cons {c : Host.Cell} {m : Memory} (h : Memory.wf (c :: m)) :
    (∀ d ∈ m, c.1 < d.1) ∧ c.2 ≠ unlistedByte ∧ Memory.wf m := by
  obtain ⟨hp, hz⟩ := h
  rw [List.pairwise_cons] at hp
  exact ⟨hp.1, hz c (by simp), hp.2, fun d hd => hz d (by simp [hd])⟩

/-- Read over write, in a canonical memory. -/
theorem Memory.read_write {m : Memory} (h : m.wf) (a : Nat) (v : Byte) (b : Nat) :
    (m.write a v).read b = if b = a then v else m.read b := by
  induction m with
  | nil =>
    by_cases hv : v = unlistedByte <;> by_cases hb : b = a <;>
      simp [Memory.write, Memory.read, hv, hb, eq_comm (a := a)]
  | cons c rest ih =>
    obtain ⟨k, x⟩ := c
    obtain ⟨hlt, hx, hrest⟩ := Memory.wf_cons h
    have ih := ih hrest
    have below : a ≤ k → ∀ d ∈ rest, a < d.1 := fun hk d hd => by have := hlt d hd; simp at this; omega
    rw [Memory.write]
    by_cases h1 : a < k
    · have hka : k ≠ a := by omega
      by_cases hb : b = a
      · subst hb
        have := Memory.read_of_below (below (by omega))
        by_cases hv : v = unlistedByte <;> simp [h1, hv, Memory.read, hka, this]
      · by_cases hv : v = unlistedByte <;> simp [h1, hv, Memory.read, hb, Ne.symm hb]
    · by_cases h2 : a = k
      · subst h2
        have := Memory.read_of_below (below (by omega))
        by_cases hv : v = unlistedByte <;> by_cases hb : b = a <;>
          simp [hv, hb, Memory.read, this, eq_comm (a := a)]
      · by_cases hb : k = b
        · subst hb
          simp [h1, h2, Memory.read, Ne.symm h2]
        · simp [h1, h2, Memory.read, hb, ih]

/-- The addresses of a written memory. -/
theorem Memory.mem_write {m : Memory} {a : Nat} {v : Byte} {c : Host.Cell}
    (h : c ∈ m.write a v) : c = (a, v) ∨ c ∈ m := by
  induction m with
  | nil =>
    by_cases hv : v = unlistedByte
    · simp [Memory.write, hv] at h
    · simp [Memory.write, hv] at h; exact .inl h
  | cons d rest ih =>
    rw [Memory.write] at h
    split at h
    · split at h
      · exact .inr h
      · simpa using h
    · split at h
      · split at h
        · exact .inr (by simp [h])
        · rcases List.mem_cons.1 h with h | h
          · exact .inl h
          · exact .inr (by simp [h])
      · rcases List.mem_cons.1 h with h | h
        · exact .inr (by simp [h])
        · rcases ih h with h | h
          · exact .inl h
          · exact .inr (by simp [h])

/-- A write keeps the canonical form. -/
theorem Memory.write_wf {m : Memory} (h : m.wf) (a : Nat) (v : Byte) : (m.write a v).wf := by
  induction m with
  | nil => by_cases hv : v = unlistedByte <;> simp [Memory.write, Memory.wf, hv]
  | cons c rest ih =>
    obtain ⟨k, x⟩ := c
    have hall := h
    obtain ⟨hlt, hx, hrest⟩ := Memory.wf_cons h
    have make : ∀ (d : Host.Cell) (r : Memory), r.wf → (∀ e ∈ r, d.1 < e.1) → d.2 ≠ unlistedByte →
        Memory.wf (d :: r) := fun d r hr hd hz =>
      ⟨List.pairwise_cons.2 ⟨hd, hr.1⟩, by
        intro e he
        rcases List.mem_cons.1 he with rfl | he
        · exact hz
        · exact hr.2 e he⟩
    rw [Memory.write]
    split
    · split
      · exact hall
      · refine make _ _ hall ?_ ‹_›
        intro e he
        rcases List.mem_cons.1 he with rfl | he
        · assumption
        · exact Nat.lt_trans ‹_› (hlt e he)
    · split
      · subst_vars
        split
        · exact hrest
        · exact make _ _ hrest hlt ‹_›
      · refine make _ _ (ih hrest) ?_ hx
        intro e he
        rcases Memory.mem_write he with rfl | he
        · show k < a
          omega
        · exact hlt e he

/-- Canonical memories with the same bytes are equal lists. -/
theorem Memory.ext_of_read {m n : Memory} (hm : m.wf) (hn : n.wf)
    (h : ∀ a, m.read a = n.read a) : m = n := by
  induction m generalizing n with
  | nil =>
    cases n with
    | nil => rfl
    | cons c r => exact absurd (by simpa [Memory.read] using (h c.1).symm) (Memory.wf_cons hn).2.1
  | cons c r ih =>
    obtain ⟨hlt, hx, hr⟩ := Memory.wf_cons hm
    cases n with
    | nil => exact absurd (by simpa [Memory.read] using h c.1) hx
    | cons d q =>
      obtain ⟨hlt', hx', hq⟩ := Memory.wf_cons hn
      have heq : c.1 = d.1 := by
        rcases Nat.lt_trichotomy c.1 d.1 with hl | he | hl
        · have := Memory.read_of_below (m := d :: q) (a := c.1) (by
            intro e he
            rcases List.mem_cons.1 he with rfl | he
            · exact hl
            · exact Nat.lt_trans hl (hlt' e he))
          exact absurd (by have e := h c.1; rw [this] at e; simpa [Memory.read] using e) hx
        · exact he
        · have := Memory.read_of_below (m := c :: r) (a := d.1) (by
            intro e he
            rcases List.mem_cons.1 he with rfl | he
            · exact hl
            · exact Nat.lt_trans hl (hlt e he))
          exact absurd (by have e := (h d.1).symm; rw [this] at e; simpa [Memory.read] using e) hx'
      have hval : c.2 = d.2 := by simpa [Memory.read, heq] using h c.1
      have hcd : c = d := Prod.ext heq hval
      subst hcd
      congr 1
      refine ih hr hq fun a => ?_
      by_cases ha : c.1 = a
      · subst ha
        rw [Memory.read_of_below hlt, Memory.read_of_below hlt']
      · simpa [Memory.read, ha] using h a

/-! ## Words -/

theorem Memory.store32_wf {m : Memory} (h : m.wf) (a : Nat) (v : Word) : (m.store32 a v).wf := by
  unfold Memory.store32
  exact Memory.write_wf (Memory.write_wf (Memory.write_wf (Memory.write_wf h _ _) _ _) _ _) _ _

/-- Every byte after a word is stored (R45): the 4 bytes hold it, every other byte is as before. -/
theorem Memory.read_store32 {m : Memory} (h : m.wf) (a : Nat) (v : Word) (b : Nat) :
    (m.store32 a v).read b =
      if b = a + 3 then v.extractLsb' 24 8 else if b = a + 2 then v.extractLsb' 16 8
      else if b = a + 1 then v.extractLsb' 8 8 else if b = a then v.extractLsb' 0 8
      else m.read b := by
  have h1 := Memory.write_wf h a (v.extractLsb' 0 8)
  have h2 := Memory.write_wf h1 (a + 1) (v.extractLsb' 8 8)
  have h3 := Memory.write_wf h2 (a + 2) (v.extractLsb' 16 8)
  rw [Memory.store32, Memory.read_write h3, Memory.read_write h2, Memory.read_write h1,
    Memory.read_write h]

theorem Memory.read_store32_outside {m : Memory} (h : m.wf) (a : Nat) (v : Word) {b : Nat}
    (hb : b < a ∨ a + 4 ≤ b) : (m.store32 a v).read b = m.read b := by
  rw [Memory.read_store32 h, if_neg (by omega), if_neg (by omega), if_neg (by omega),
    if_neg (by omega)]

theorem Memory.read_store32_byte {m : Memory} (h : m.wf) (a : Nat) (v : Word) {k : Nat}
    (hk : k < 4) : (m.store32 a v).read (a + k) = v.extractLsb' (8 * k) 8 := by
  rw [Memory.read_store32 h]
  rcases k with _ | _ | _ | _ | k
  · simp
  · simp
  · simp
  · simp
  · omega

theorem Memory.mem_store32 {m : Memory} {a : Nat} {v : Word} {c : Host.Cell}
    (h : c ∈ m.store32 a v) : (a ≤ c.1 ∧ c.1 < a + 4) ∨ c ∈ m := by
  unfold Memory.store32 at h
  rcases Memory.mem_write h with rfl | h
  · exact .inl (by simp)
  rcases Memory.mem_write h with rfl | h
  · exact .inl (by simp)
  rcases Memory.mem_write h with rfl | h
  · exact .inl (by simp)
  rcases Memory.mem_write h with rfl | h
  · exact .inl (by simp)
  · exact .inr h

/-- "Values written are read back identically" (R46). -/
theorem Memory.load32_store32 {m : Memory} (h : m.wf) (a : Nat) (v : Word) :
    (m.store32 a v).load32 a = v := by
  have := Memory.read_store32_byte h a v (k := 0) (by omega)
  rw [Memory.load32, Memory.read_store32_byte h a v (by omega : 3 < 4),
    Memory.read_store32_byte h a v (by omega : 2 < 4), Memory.read_store32_byte h a v (by omega : 1 < 4),
    show (m.store32 a v).read a = _ from this]
  exact bytes_append v

/-- The bytes of a loaded word (R44). -/
theorem Memory.load32_byte (m : Memory) (a : Nat) {k : Nat} (hk : k < 4) :
    (m.load32 a).extractLsb' (8 * k) 8 = m.read (a + k) := by
  apply BitVec.eq_of_getLsbD_eq
  intro i hi
  simp only [BitVec.getLsbD_extractLsb', hi, Memory.load32, BitVec.getLsbD_append]
  rcases k with _ | _ | _ | _ | k
  · simp [hi]
  · simp [hi]
  · simp [hi, show ¬ 16 + i < 8 by omega, show ¬ 16 + i - 8 < 8 by omega,
      show 16 + i - 8 - 8 = i by omega]
  · simp [hi, show ¬ 24 + i < 8 by omega, show ¬ 24 + i - 8 < 8 by omega,
      show ¬ 24 + i - 8 - 8 < 8 by omega, show 24 + i - 8 - 8 - 8 = i by omega]
  · omega

/-- A load depends on its 4 bytes only. -/
theorem Memory.load32_congr {m n : Memory} {a : Nat}
    (h : ∀ k, k < 4 → m.read (a + k) = n.read (a + k)) : m.load32 a = n.load32 a := by
  have h0 := h 0 (by omega)
  simp only [Nat.add_zero] at h0
  rw [Memory.load32, Memory.load32, h 3 (by omega), h 2 (by omega), h 1 (by omega), h0]

/-- A word apart from the stored one reads as before. -/
theorem Memory.load32_store32_apart {m : Memory} (h : m.wf) {a b : Nat} (v : Word)
    (hab : b + 4 ≤ a ∨ a + 4 ≤ b) : (m.store32 a v).load32 b = m.load32 b :=
  Memory.load32_congr fun k hk => Memory.read_store32_outside h a v (by omega)

end Sys2Proof.Machine
end

