-- ==== Sys2Proof/Laws/Operands.lean ====
section
/-! SUPPORT. What the shared operations over operands, memory and the ports can do, said once each. -/

namespace Sys2Proof.Machine

/-! ## Register fields -/

@[simp] theorem regField_toNat (i : RegIx) : (regField i).toNat = i.val := by
  simp [regField, BitVec.toNat_ofNat]; omega

@[simp] theorem regField_inj {i j : RegIx} : regField i = regField j ↔ i = j := by
  refine ⟨fun h => Fin.ext ?_, fun h => h ▸ rfl⟩
  have := congrArg BitVec.toNat h
  simpa using this

@[simp] theorem fieldNamesRegister_regField (i : RegIx) : fieldNamesRegister (regField i) = true := by
  simp [fieldNamesRegister]; omega

theorem fieldNamesRegister_iff {f : RegField} : fieldNamesRegister f = true ↔ ∃ i, f = regField i := by
  constructor
  · intro h
    have h : f.toNat < 17 := by simp [fieldNamesRegister] at h; omega
    exact ⟨⟨f.toNat, h⟩, BitVec.eq_of_toNat_eq (by simp)⟩
  · rintro ⟨i, rfl⟩
    simp

theorem not_fieldNamesRegister {f : RegField} : fieldNamesRegister f = false ↔ 16 < f.toNat := by
  simp [fieldNamesRegister]

@[simp] theorem withReg_regField (s : State) (i : RegIx) (k : RegIx → Result) :
    s.withReg (regField i) k = k i := by
  have h : (regField i).toNat < 17 := by simp
  rw [State.withReg, dif_pos h]
  congr 1
  exact Fin.ext (regField_toNat i)

theorem withReg_fault (s : State) {f : RegField} (h : 16 < f.toNat) (k : RegIx → Result) :
    s.withReg f k = .next (s.takeFault (.registerFault s.pc f)) := by
  rw [State.withReg, dif_neg (by omega)]

/-- The field check either names a register or faults. -/
theorem withReg_cases (s : State) (f : RegField) (k : RegIx → Result) :
    (∃ i, f = regField i ∧ s.withReg f k = k i) ∨
    (16 < f.toNat ∧ s.withReg f k = .next (s.takeFault (.registerFault s.pc f))) := by
  cases h : fieldNamesRegister f
  · have h := not_fieldNamesRegister.1 h
    exact .inr ⟨h, withReg_fault s h k⟩
  · obtain ⟨i, rfl⟩ := fieldNamesRegister_iff.1 h
    exact .inl ⟨i, rfl, withReg_regField s i k⟩

/-- All that a field check to a next state can be. -/
theorem withReg_next {s t : State} {f : RegField} {k : RegIx → Result}
    (h : s.withReg f k = .next t) :
    (∃ a, f = regField a ∧ k a = .next t) ∨
    (16 < f.toNat ∧ t = s.takeFault (.registerFault s.pc f)) := by
  obtain ⟨a, ha, e⟩ | ⟨hf, e⟩ := withReg_cases s f k
  · exact .inl ⟨a, ha, e ▸ h⟩
  · rw [e] at h
    cases h
    exact .inr ⟨hf, rfl⟩

/-! ## Immediates -/

/-- The sign-extended immediate has the value of the field (R62). -/
@[simp] theorem sextImm_toInt (imm : BitVec 16) : (sextImm imm).toInt = imm.toInt :=
  BitVec.toInt_signExtend_of_le (by omega)

/-- The target, computed exactly and reduced modulo 2^32 (R91). -/
theorem target_eq (s : State) (imm : BitVec 16) :
    s.target imm = BitVec.ofInt 32 ((s.pc.toNat : Int) + imm.toInt + 4) := by
  rw [BitVec.ofInt_add, BitVec.ofInt_add, ← sextImm_toInt, BitVec.ofInt_toInt]
  simp [State.target]

/-! ## Memory accesses -/

theorem withLoad_ok (s : State) {a : Int} (h : s.inBounds a) (k : Word → Result) :
    s.withLoad a k = k (s.mem.load32 a.toNat) := if_pos h

theorem withLoad_fault (s : State) {a : Int} (h : ¬ s.inBounds a) (k : Word → Result) :
    s.withLoad a k = .next (s.takeFault (.memoryFault s.pc a)) := if_neg h

theorem withStore_ok (s : State) {a : Int} (h : s.inBounds a) (v : Word) (k : State → Result) :
    s.withStore a v k = k { s with mem := s.mem.store32 a.toNat v } := if_pos h

theorem withStore_fault (s : State) {a : Int} (h : ¬ s.inBounds a) (v : Word) (k : State → Result) :
    s.withStore a v k = .next (s.takeFault (.memoryFault s.pc a)) := if_neg h

/-- All that a load to a next state can be (R44). -/
theorem withLoad_next {s t : State} {a : Int} {k : Word → Result} (h : s.withLoad a k = .next t) :
    (s.inBounds a ∧ k (s.mem.load32 a.toNat) = .next t) ∨
    (¬ s.inBounds a ∧ t = s.takeFault (.memoryFault s.pc a)) := by
  by_cases hb : s.inBounds a
  · exact .inl ⟨hb, withLoad_ok s hb k ▸ h⟩
  · rw [withLoad_fault s hb] at h
    cases h
    exact .inr ⟨hb, rfl⟩

/-- All that a store to a next state can be (R45). -/
theorem withStore_next {s t : State} {a : Int} {v : Word} {k : State → Result}
    (h : s.withStore a v k = .next t) :
    (s.inBounds a ∧ k { s with mem := s.mem.store32 a.toNat v } = .next t) ∨
    (¬ s.inBounds a ∧ t = s.takeFault (.memoryFault s.pc a)) := by
  by_cases hb : s.inBounds a
  · exact .inl ⟨hb, withStore_ok s hb v k ▸ h⟩
  · rw [withStore_fault s hb] at h
    cases h
    exact .inr ⟨hb, rfl⟩

/-! ## The input port -/

theorem withInput_nil (s : State) (h : s.input = []) (k : Word → State → Result) :
    s.withInput k = .next s := by simp [State.withInput, h]

theorem withInput_cons (s : State) {v : Word} {rest : List Word} (h : s.input = v :: rest)
    (k : Word → State → Result) : s.withInput k = k v { s with input := rest } := by
  simp [State.withInput, h]

/-- All that taking an input value to a next state can be (R130). -/
theorem withInput_next {s t : State} {k : Word → State → Result} (h : s.withInput k = .next t) :
    (∃ v rest, s.input = v :: rest ∧ k v { s with input := rest } = .next t) ∨
    (s.input = [] ∧ t = s) := by
  cases hi : s.input with
  | nil =>
    rw [withInput_nil s hi] at h
    cases h
    exact .inr ⟨rfl, rfl⟩
  | cons v rest => exact .inl ⟨v, rest, rfl, withInput_cons s hi k ▸ h⟩

/-! ## Fetch -/

theorem atEnd_iff (s : State) : s.atEnd = true ↔ s.pc.toNat = 4 * s.prog.length := by
  simp [State.atEnd, State.sentinel]

theorem atEnd_false_iff (s : State) : s.atEnd = false ↔ s.pc.toNat ≠ 4 * s.prog.length := by
  simp [State.atEnd, State.sentinel]

theorem fetchable_iff (s : State) :
    s.fetchable = true ↔ s.pc.toNat % 4 = 0 ∧ s.pc.toNat ≤ 4 * s.prog.length := by
  rw [State.fetchable, Bool.and_eq_true, beq_iff_eq, decide_eq_true_iff, State.sentinel]

theorem fetchable_false_iff (s : State) :
    s.fetchable = false ↔ s.pc.toNat % 4 ≠ 0 ∨ 4 * s.prog.length < s.pc.toNat := by
  rw [← Bool.not_eq_true, fetchable_iff]
  omega

theorem fetch_of_not_fetchable (s : State) (h : s.fetchable = false) :
    s.fetch = .error (.fetchFault s.pc) := by simp [State.fetch, h]

/-- A fetchable pc that is not the sentinel lies in the program (R81, R82). -/
theorem fetch_of_fetchable (s : State) (h : s.fetchable = true) (he : s.atEnd = false) :
    ∃ w, s.prog[s.pc.toNat / 4]? = some w ∧ s.fetch = .ok w := by
  have hf := h
  rw [fetchable_iff] at h
  rw [atEnd_false_iff] at he
  have hlt : s.pc.toNat / 4 < s.prog.length := by omega
  refine ⟨s.prog[s.pc.toNat / 4], List.getElem?_eq_getElem hlt, ?_⟩
  simp [State.fetch, hf, List.getElem?_eq_getElem hlt]

/-- The fetch either reads the word at pc or raises FetchFault(pc) on a pc that fails the check. -/
theorem fetch_cases (s : State) (he : s.atEnd = false) :
    (s.fetchable = false ∧ s.fetch = .error (.fetchFault s.pc)) ∨
    (s.fetchable = true ∧ ∃ w, s.prog[s.pc.toNat / 4]? = some w ∧ s.fetch = .ok w) := by
  cases h : s.fetchable
  · exact .inl ⟨rfl, fetch_of_not_fetchable s h⟩
  · exact .inr ⟨rfl, fetch_of_fetchable s h he⟩

end Sys2Proof.Machine
end

