-- ==== Sys2Proof/Laws/Exec.lean ====
section
/-! SUPPORT. What `exec` and `step` can do, said once: every answer of `exec` is a next state, of one of
the shapes of `Effect`; `step_cases` inverts the step. -/

namespace Sys2Proof.Machine

/-! ## The meanings over the shared operations, one equation each -/

section equations
variable (r1 r2 : RegField) (imm : BitVec 16) (opc : BitVec 5) (s : State)

theorem exec_subi : exec (.subi r1 imm) s =
    s.withReg r1 fun a => .next (s.setReg a (s.reg a - sextImm imm)).advance := rfl

theorem exec_add : exec (.add r1 r2) s =
    s.withReg r1 fun a => s.withReg r2 fun b => .next (s.setReg b (s.reg b + s.reg a)).advance := rfl

theorem exec_addi : exec (.addi r1 imm) s =
    s.withReg r1 fun a => .next (s.setReg a (s.reg a + sextImm imm)).advance := rfl

theorem exec_mul : exec (.mul r1 r2) s =
    s.withReg r1 fun a => s.withReg r2 fun b => .next (s.setReg b (s.reg a * s.reg b)).advance := rfl

theorem exec_shr : exec (.shr r1) s =
    s.withReg r1 fun a => .next (s.setReg a (shiftRightOne (s.reg a))).advance := rfl

theorem exec_mov : exec (.mov r1 r2) s =
    s.withReg r1 fun a => s.withReg r2 fun b => .next (s.setReg b (s.reg a)).advance := rfl

theorem exec_load : exec (.load r2 imm) s =
    s.withReg r2 fun b => s.withLoad (s.slotAddr imm) fun v => .next (s.setReg b v).advance := rfl

theorem exec_store : exec (.store r1 imm) s =
    s.withReg r1 fun a => s.withStore (s.slotAddr imm) (s.reg a) fun t => .next t.advance := rfl

theorem exec_movi : exec (.movi r1 imm) s =
    s.withReg r1 fun a => .next (s.setReg a (sextImm imm)).advance := rfl

theorem exec_cmp : exec (.cmp r1 r2) s =
    s.withReg r1 fun b => s.withReg r2 fun a =>
      .next (s.setReg F (cmpFlags (s.reg a) (s.reg b))).advance := rfl

theorem exec_je : exec (.je imm) s = branchIf condE imm s := rfl
theorem exec_jl : exec (.jl imm) s = branchIf condL imm s := rfl
theorem exec_jle : exec (.jle imm) s = branchIf condLE imm s := rfl
theorem exec_jge : exec (.jge imm) s = branchIf condGE imm s := rfl
theorem exec_jbe : exec (.jbe imm) s = branchIf condBE imm s := rfl
theorem exec_jmp : exec (.jmp imm) s = .next (s.setPc (s.target imm)) := rfl

theorem exec_call : exec (.call imm) s =
    s.withStore s.pushAddr (s.pc + 4) fun t =>
      .next ((t.setReg SP s.pushedSp).setPc (s.target imm)) := rfl

theorem exec_ret_empty (h : s.reg SP = s.spInit) : exec .ret s = .next (s.halt .emptyStackReturn) :=
  if_pos h

theorem exec_ret_pop (h : s.reg SP ≠ s.spInit) : exec .ret s =
    s.withLoad s.topAddr fun v => .next ((s.setReg SP (s.reg SP + 4)).setPc v) := if_neg h

theorem exec_push : exec (.push r1) s =
    s.withReg r1 fun a => s.withStore s.pushAddr (if a = SP then s.pushedSp else s.reg a) fun t =>
      .next (t.setReg SP s.pushedSp).advance := rfl

theorem exec_pop : exec (.pop r1) s =
    s.withReg r1 fun a => s.withLoad s.topAddr fun v => .next (s.popInto a v).advance := rfl

theorem exec_print : exec (.print r1) s =
    s.withReg r1 fun a => .next (s.emit (s.reg a)).advance := rfl

theorem exec_read : exec (.read r1) s =
    s.withReg r1 fun a => s.withInput fun v t => .next (t.setReg a v).advance := rfl

theorem exec_nop : exec (.nop opc) s = .next s.advance := rfl
end equations

/-! ## The answers on existing registers, in bounds, with an input value -/

section answers
variable (a b : RegIx) (imm : BitVec 16) (s : State)

theorem exec_load_ok (h : s.inBounds (s.slotAddr imm)) : exec (.load (regField b) imm) s =
    .next (s.setReg b (s.mem.load32 (s.slotAddr imm).toNat)).advance := by
  rw [exec_load, withReg_regField, withLoad_ok s h]

theorem exec_store_ok (h : s.inBounds (s.slotAddr imm)) : exec (.store (regField a) imm) s =
    .next (State.advance { s with mem := s.mem.store32 (s.slotAddr imm).toNat (s.reg a) }) := by
  rw [exec_store, withReg_regField, withStore_ok s h]

theorem exec_call_ok (h : s.inBounds s.pushAddr) : exec (.call imm) s =
    .next ((State.setReg { s with mem := s.mem.store32 s.pushAddr.toNat (s.pc + 4) }
      SP s.pushedSp).setPc (s.target imm)) := by
  rw [exec_call, withStore_ok s h]

theorem exec_ret_ok (hsp : s.reg SP ≠ s.spInit) (h : s.inBounds s.topAddr) : exec .ret s =
    .next ((s.setReg SP (s.reg SP + 4)).setPc (s.mem.load32 s.topAddr.toNat)) := by
  rw [exec_ret_pop s hsp, withLoad_ok s h]

theorem exec_push_ok (h : s.inBounds s.pushAddr) : exec (.push (regField a)) s =
    .next (State.setReg
      { s with mem := s.mem.store32 s.pushAddr.toNat (if a = SP then s.pushedSp else s.reg a) }
      SP s.pushedSp).advance := by
  rw [exec_push, withReg_regField, withStore_ok s h]

theorem exec_pop_ok (h : s.inBounds s.topAddr) : exec (.pop (regField a)) s =
    .next (s.popInto a (s.mem.load32 s.topAddr.toNat)).advance := by
  rw [exec_pop, withReg_regField, withLoad_ok s h]

theorem exec_print_ok : exec (.print (regField a)) s = .next (s.emit (s.reg a)).advance := by
  rw [exec_print, withReg_regField]

theorem exec_read_ok {v : Word} {rest : List Word} (h : s.input = v :: rest) :
    exec (.read (regField a)) s = .next (State.setReg { s with input := rest } a v).advance := by
  rw [exec_read, withReg_regField, withInput_cons s h]

theorem exec_read_waits (h : s.input = []) : exec (.read (regField a)) s = .next s := by
  rw [exec_read, withReg_regField, withInput_nil s h]
end answers

/-! ## The shapes of a next state -/

/-- The shapes of a next state that instruction `i` can answer in `s`. -/
inductive Effect (s : State) : Instr → State → Prop where
  /-- RegisterFault on a used field of 17 to 31 (R84, R136). -/
  | regFault {i : Instr} (f : RegField) (hu : f ∈ i.usedRegs) (h : 16 < f.toNat) :
      Effect s i (s.takeFault (.registerFault s.pc f))
  /-- MemoryFault on an address out of bounds (R44, R45, R136). -/
  | memFault {i : Instr} (a : Int) (h : ¬ s.inBounds a) :
      Effect s i (s.takeFault (.memoryFault s.pc a))
  /-- RET on the empty stack (R120). -/
  | halted (h : s.reg SP = s.spInit) : Effect s .ret (s.halt .emptyStackReturn)
  /-- READ with no input value (R130). -/
  | waits (a : RegIx) (h : s.input = []) : Effect s (.read (regField a)) s
  /-- Registers and pc only. -/
  | plain {i : Instr} (regs : Vector Word 17) (pc : Word) : Effect s i { s with regs := regs, pc := pc }
  /-- A store in bounds, with registers and pc. -/
  | stored {i : Instr} (a : Int) (ha : s.storeAddr i = some a) (h : s.inBounds a) (v : Word)
      (regs : Vector Word 17) (pc : Word) :
      Effect s i { s with mem := s.mem.store32 a.toNat v, regs := regs, pc := pc }
  /-- One output event. -/
  | emitted (a : RegIx) : Effect s (.print (regField a)) (s.emit (s.reg a)).advance
  /-- One input value consumed. -/
  | taken (a : RegIx) (v : Word) (rest : List Word) (h : s.input = v :: rest) :
      Effect s (.read (regField a)) (State.setReg { s with input := rest } a v).advance

/-- `r` answers a next state of a shape of `Effect`. -/
def Answers (s : State) (i : Instr) (r : Result) : Prop := ∃ t, r = .next t ∧ Effect s i t

theorem answers_withReg {s : State} {i : Instr} {f : RegField} {k : RegIx → Result}
    (hu : f ∈ i.usedRegs) (h : ∀ a, f = regField a → Answers s i (k a)) :
    Answers s i (s.withReg f k) := by
  obtain ⟨a, ha, e⟩ | ⟨hf, e⟩ := withReg_cases s f k
  · rw [e]; exact h a ha
  · exact ⟨_, e, .regFault f hu hf⟩

theorem answers_withLoad {s : State} {i : Instr} {a : Int} {k : Word → Result}
    (h : ∀ v, Answers s i (k v)) : Answers s i (s.withLoad a k) := by
  by_cases hb : s.inBounds a
  · rw [withLoad_ok s hb]; exact h _
  · exact ⟨_, withLoad_fault s hb k, .memFault a hb⟩

theorem answers_withStore {s : State} {i : Instr} {a : Int} {v : Word} {k : State → Result}
    (h : s.inBounds a → Answers s i (k { s with mem := s.mem.store32 a.toNat v })) :
    Answers s i (s.withStore a v k) := by
  by_cases hb : s.inBounds a
  · rw [withStore_ok s hb]; exact h hb
  · exact ⟨_, withStore_fault s hb v k, .memFault a hb⟩

theorem answers_plain (s : State) (i : Instr) (regs : Vector Word 17) (pc : Word) :
    Answers s i (.next { s with regs := regs, pc := pc }) := ⟨_, rfl, .plain regs pc⟩

theorem answers_branchIf (s : State) (i : Instr) (cond : Word → Bool) (imm : BitVec 16) :
    Answers s i (branchIf cond imm s) := by
  refine ⟨_, rfl, ?_⟩
  split
  · exact .plain s.regs _
  · exact .plain s.regs _

/-- Every instruction answers a next state (no fault outcome, no refusal), of a shape of `Effect`. -/
theorem exec_answers (i : Instr) (s : State) : Answers s i (exec i s) := by
  cases i with
  | subi r1 imm =>
    rw [exec_subi]
    refine answers_withReg (by simp [Instr.usedRegs]) fun a _ => ?_
    exact answers_plain s _ _ _
  | add r1 r2 =>
    rw [exec_add]
    refine answers_withReg (by simp [Instr.usedRegs]) fun a _ => ?_
    refine answers_withReg (by simp [Instr.usedRegs]) fun b _ => ?_
    exact answers_plain s _ _ _
  | addi r1 imm =>
    rw [exec_addi]
    refine answers_withReg (by simp [Instr.usedRegs]) fun a _ => ?_
    exact answers_plain s _ _ _
  | mul r1 r2 =>
    rw [exec_mul]
    refine answers_withReg (by simp [Instr.usedRegs]) fun a _ => ?_
    refine answers_withReg (by simp [Instr.usedRegs]) fun b _ => ?_
    exact answers_plain s _ _ _
  | shr r1 =>
    rw [exec_shr]
    refine answers_withReg (by simp [Instr.usedRegs]) fun a _ => ?_
    exact answers_plain s _ _ _
  | mov r1 r2 =>
    rw [exec_mov]
    refine answers_withReg (by simp [Instr.usedRegs]) fun a _ => ?_
    refine answers_withReg (by simp [Instr.usedRegs]) fun b _ => ?_
    exact answers_plain s _ _ _
  | load r2 imm =>
    rw [exec_load]
    refine answers_withReg (by simp [Instr.usedRegs]) fun b _ => ?_
    refine answers_withLoad fun v => ?_
    exact answers_plain s _ _ _
  | store r1 imm =>
    rw [exec_store]
    refine answers_withReg (by simp [Instr.usedRegs]) fun a _ => ?_
    refine answers_withStore fun hb => ?_
    exact ⟨_, rfl, .stored _ rfl hb _ s.regs _⟩
  | movi r1 imm =>
    rw [exec_movi]
    refine answers_withReg (by simp [Instr.usedRegs]) fun a _ => ?_
    exact answers_plain s _ _ _
  | cmp r1 r2 =>
    rw [exec_cmp]
    refine answers_withReg (by simp [Instr.usedRegs]) fun a _ => ?_
    refine answers_withReg (by simp [Instr.usedRegs]) fun b _ => ?_
    exact answers_plain s _ _ _
  | je imm => exact answers_branchIf s _ _ imm
  | jl imm => exact answers_branchIf s _ _ imm
  | jle imm => exact answers_branchIf s _ _ imm
  | jge imm => exact answers_branchIf s _ _ imm
  | jbe imm => exact answers_branchIf s _ _ imm
  | jmp imm => exact answers_plain s _ s.regs _
  | call imm =>
    rw [exec_call]
    refine answers_withStore fun hb => ?_
    exact ⟨_, rfl, .stored _ rfl hb _ _ _⟩
  | ret =>
    by_cases h : s.reg SP = s.spInit
    · exact ⟨_, exec_ret_empty s h, .halted h⟩
    · rw [exec_ret_pop s h]
      refine answers_withLoad fun v => ?_
      exact answers_plain s _ _ _
  | push r1 =>
    rw [exec_push]
    refine answers_withReg (by simp [Instr.usedRegs]) fun a _ => ?_
    refine answers_withStore fun hb => ?_
    exact ⟨_, rfl, .stored _ rfl hb _ _ _⟩
  | pop r1 =>
    rw [exec_pop]
    refine answers_withReg (by simp [Instr.usedRegs]) fun a _ => ?_
    refine answers_withLoad fun v => ?_
    exact answers_plain s _ _ _
  | print r1 =>
    rw [exec_print]
    refine answers_withReg (by simp [Instr.usedRegs]) fun a ha => ?_
    subst ha
    exact ⟨_, rfl, .emitted a⟩
  | read r1 =>
    rw [exec_read]
    refine answers_withReg (by simp [Instr.usedRegs]) fun a ha => ?_
    subst ha
    cases h : s.input with
    | nil => exact ⟨_, withInput_nil s h _, .waits a h⟩
    | cons v rest =>
      rw [withInput_cons s h]
      exact ⟨_, rfl, .taken a v rest h⟩
  | nop opc => exact answers_plain s _ s.regs _

theorem exec_effect {i : Instr} {s t : State} (h : exec i s = .next t) : Effect s i t := by
  obtain ⟨u, hu, he⟩ := exec_answers i s
  rw [h] at hu
  cases hu
  exact he

/-! ## The step -/

theorem step_halted {s : State} {c : HaltCause} (h : s.run = .halted c) :
    step s = .fault (.alreadyHalted c) := by simp [step, h]

theorem step_faulted {s : State} {f : CoreFault} (h : s.run = .faulted f) :
    step s = .fault (.alreadyFaulted f) := by simp [step, h]

theorem step_atEnd {s : State} (h : s.run = .running) (he : s.atEnd = true) :
    step s = .next (s.halt .endOfProgram) := by simp [step, h, he]

theorem step_fetchFault {s : State} (h : s.run = .running) (he : s.atEnd = false)
    (hf : s.fetchable = false) : step s = .next (s.takeFault (.fetchFault s.pc)) := by
  simp [step, h, he, fetch_of_not_fetchable s hf]

theorem step_exec {s : State} (h : s.run = .running) (he : s.atEnd = false) {w : Word}
    (hf : s.fetch = .ok w) : step s = exec (decode s.cfg w) s := by
  simp [step, h, he, hf]

/-- The instruction at pc, where there is one (R83). -/
theorem current_of_fetch {s : State} (he : s.atEnd = false) {w : Word} (hf : s.fetch = .ok w) :
    s.current = some (decode s.cfg w) := by simp [State.current, he, hf]

theorem current_atEnd {s : State} (he : s.atEnd = true) : s.current = none := by
  simp [State.current, he]

theorem current_fetchFault {s : State} (he : s.atEnd = false) (hf : s.fetchable = false) :
    s.current = none := by
  simp [State.current, he, fetch_of_not_fetchable s hf]

/-- All that a step to a next state can be (R86). -/
theorem step_cases {s t : State} (h : step s = .next t) :
    s.run = .running ∧
    ((s.atEnd = true ∧ s.current = none ∧ t = s.halt .endOfProgram) ∨
     (s.atEnd = false ∧ s.fetchable = false ∧ s.current = none ∧
        t = s.takeFault (.fetchFault s.pc)) ∨
     (s.atEnd = false ∧ s.fetchable = true ∧ ∃ i, s.current = some i ∧ exec i s = .next t)) := by
  cases hr : s.run with
  | halted c => rw [step_halted hr] at h; cases h
  | faulted f => rw [step_faulted hr] at h; cases h
  | running =>
    refine ⟨rfl, ?_⟩
    cases he : s.atEnd
    · obtain ⟨hf, -⟩ | ⟨hf, w, -, hfw⟩ := fetch_cases s he
      · rw [step_fetchFault hr he hf] at h
        cases h
        exact .inr (.inl ⟨rfl, hf, current_fetchFault he hf, rfl⟩)
      · rw [step_exec hr he hfw] at h
        exact .inr (.inr ⟨rfl, hf, _, current_of_fetch he hfw, h⟩)
    · rw [step_atEnd hr he] at h
      cases h
      exact .inl ⟨rfl, current_atEnd he, rfl⟩

/-- Where there is an instruction at pc, a running core runs it. -/
theorem step_of_current {s : State} (hr : s.run = .running) {i : Instr} (h : s.current = some i) :
    step s = exec i s := by
  cases he : s.atEnd
  · obtain ⟨hf, -⟩ | ⟨-, w, -, hfw⟩ := fetch_cases s he
    · rw [current_fetchFault he hf] at h; cases h
    · rw [current_of_fetch he hfw] at h
      cases h
      exact step_exec hr he hfw
  · rw [current_atEnd he] at h; cases h

end Sys2Proof.Machine
end

