-- ==== Sys2Proof/Laws/PerInstr.lean ====
section
/-! SUPPORT. Facts that hold of every instruction as syntax, one lemma per constructor. -/

namespace Sys2Proof.Laws.Bit16Zero

open Sys2Proof

/-- The encoder writes bit 16 as 0 (R61, R73). -/
def Statement (i : Instr) : Prop := ∀ c : Config, (encode c i).getLsbD 16 = false

theorem subi (r1 : RegField) (imm : BitVec 16) : Statement (.subi r1 imm) := fun _ => packFields_bit16 _
theorem add (r1 : RegField) (r2 : RegField) : Statement (.add r1 r2) := fun _ => packFields_bit16 _
theorem addi (r1 : RegField) (imm : BitVec 16) : Statement (.addi r1 imm) := fun _ => packFields_bit16 _
theorem mul (r1 : RegField) (r2 : RegField) : Statement (.mul r1 r2) := fun _ => packFields_bit16 _
theorem shr (r1 : RegField) : Statement (.shr r1) := fun _ => packFields_bit16 _
theorem mov (r1 : RegField) (r2 : RegField) : Statement (.mov r1 r2) := fun _ => packFields_bit16 _
theorem load (r2 : RegField) (imm : BitVec 16) : Statement (.load r2 imm) := fun _ => packFields_bit16 _
theorem store (r1 : RegField) (imm : BitVec 16) : Statement (.store r1 imm) := fun _ => packFields_bit16 _
theorem movi (r1 : RegField) (imm : BitVec 16) : Statement (.movi r1 imm) := fun _ => packFields_bit16 _
theorem cmp (r1 : RegField) (r2 : RegField) : Statement (.cmp r1 r2) := fun _ => packFields_bit16 _
theorem je (imm : BitVec 16) : Statement (.je imm) := fun _ => packFields_bit16 _
theorem jl (imm : BitVec 16) : Statement (.jl imm) := fun _ => packFields_bit16 _
theorem jle (imm : BitVec 16) : Statement (.jle imm) := fun _ => packFields_bit16 _
theorem jge (imm : BitVec 16) : Statement (.jge imm) := fun _ => packFields_bit16 _
theorem jbe (imm : BitVec 16) : Statement (.jbe imm) := fun _ => packFields_bit16 _
theorem jmp (imm : BitVec 16) : Statement (.jmp imm) := fun _ => packFields_bit16 _
theorem call (imm : BitVec 16) : Statement (.call imm) := fun _ => packFields_bit16 _
theorem ret : Statement .ret := fun _ => packFields_bit16 _
theorem push (r1 : RegField) : Statement (.push r1) := fun _ => packFields_bit16 _
theorem pop (r1 : RegField) : Statement (.pop r1) := fun _ => packFields_bit16 _
theorem print (r1 : RegField) : Statement (.print r1) := fun _ => packFields_bit16 _
theorem read (r1 : RegField) : Statement (.read r1) := fun _ => packFields_bit16 _
theorem nop (opc : BitVec 5) : Statement (.nop opc) := fun _ => packFields_bit16 _

end Sys2Proof.Laws.Bit16Zero
end

