-- ==== Sys2Proof/Machine/Assembler.lean ====
section
/-! DEFINITION. The spec's own assembler syntax (30_encoding.md R74 to R76, D21): from text to instruction
words. It is notation for programs, outside the core; what R74 leaves open about the text is log
entry 17. -/

namespace Sys2Proof.Machine

/-! ## Characters -/

/-- A space or a tab. -/
def isBlank (c : Char) : Bool := c == ' ' || c == '\t'

/-- The pieces of a text between separators; one more piece than separators. -/
def pieces (sep : Char → Bool) : List Char → List (List Char)
  | [] => [[]]
  | c :: cs =>
    if sep c then [] :: pieces sep cs
    else match pieces sep cs with
      | [] => [[c]]
      | p :: ps => (c :: p) :: ps

/-- A text without the blanks around it. -/
def trimBlanks (t : List Char) : List Char := ((t.dropWhile isBlank).reverse.dropWhile isBlank).reverse

/-- The value of a digit in a base of 10 or 16. -/
def digitOf (base : Nat) (c : Char) : Option Nat :=
  let k :=
    if '0' ≤ c ∧ c ≤ '9' then c.toNat - 48
    else if 'a' ≤ c ∧ c ≤ 'f' then c.toNat - 87
    else if 'A' ≤ c ∧ c ≤ 'F' then c.toNat - 55
    else base
  if k < base then some k else none

/-- `acc` followed by the digits of a text. -/
def numeralFrom (base : Nat) : Nat → List Char → Option Nat
  | acc, [] => some acc
  | acc, c :: cs =>
    match digitOf base c with
    | some d => numeralFrom base (acc * base + d) cs
    | none => none

/-- The value of a text of one or more digits. -/
def numeralOf (base : Nat) (t : List Char) : Option Nat := if t.isEmpty then none else numeralFrom base 0 t

/-! ## Operands (R74) -/

/-- An operand as written. -/
inductive Operand where
  | reg (r : RegField)
  | imm (k : BitVec 16)
  | name (label : List Char)
deriving DecidableEq, Repr

/-- "registers written `r0` to `r16`; immediates written in signed decimal, or in hexadecimal with `0x` as
a 16-bit pattern" (R74); anything else is a label. DESIGN CHOICE (log entry 17): the sign of a decimal
is `-` or nothing, so `+5` is read as a label, and a text that can be read as a register or an immediate
is never a label operand. -/
def operandOf (t : List Char) : Operand :=
  match t with
  | 'r' :: ds =>
    match numeralOf 10 ds with
    | some k => if k ≤ 16 then .reg (BitVec.ofNat 5 k) else .name t
    | none => .name t
  | '0' :: 'x' :: ds =>
    match numeralOf 16 ds with
    | some k => if k < 2 ^ 16 then .imm (BitVec.ofNat 16 k) else .name t
    | none => .name t
  | '-' :: ds =>
    match numeralOf 10 ds with
    | some k => if k ≤ 2 ^ 15 then .imm (BitVec.ofInt 16 (-(k : Int))) else .name t
    | none => .name t
  | _ =>
    match numeralOf 10 t with
    | some k => if k < 2 ^ 15 then .imm (BitVec.ofNat 16 k) else .name t
    | none => .name t

/-- The immediate of a label operand: `label - (pc + 4)`, which "must lie in [-32768, 32767]" (R75, R76). -/
def labelImm (label pc : Nat) : Option (BitVec 16) :=
  let k : Int := (label : Int) - ((pc : Int) + 4)
  if -2 ^ 15 ≤ k ∧ k < 2 ^ 15 then some (BitVec.ofInt 16 k) else none

/-! ## Lines -/

/-- The mnemonic of an operation (R66). -/
def mnemonicOf : Op → List Char
  | .subi => "SUBI".toList | .add => "ADD".toList | .addi => "ADDI".toList | .mul => "MUL".toList
  | .shr => "SHR".toList | .mov => "MOV".toList | .load => "LOAD".toList | .store => "STORE".toList
  | .movi => "MOVI".toList | .cmp => "CMP".toList | .je => "JE".toList | .jl => "JL".toList
  | .jle => "JLE".toList | .jge => "JGE".toList | .jbe => "JBE".toList | .jmp => "JMP".toList
  | .call => "CALL".toList | .ret => "RET".toList | .push => "PUSH".toList | .pop => "POP".toList
  | .print => "PRINT".toList | .read => "READ".toList

/-- A line: the labels before a `:`, and the instruction text, empty if the line has none. -/
structure SourceLine where
  labels : List (List Char)
  body : List Char
deriving DecidableEq, Repr

/-- Split a line at its colons. DESIGN CHOICE (log entry 17): R74 does not say which texts may be a label
name; every text before a `:`, trimmed of blanks, is one, an empty text and one with blanks inside too. -/
def sourceLineOf (t : List Char) : SourceLine :=
  let ps := (pieces (· == ':') t).map trimBlanks
  { labels := ps.dropLast, body := ps.getLastD [] }

/-- "a label followed by `:` names the byte address of the next instruction" (R74). -/
def labelTable : Nat → List SourceLine → List (List Char × Nat)
  | _, [] => []
  | pc, l :: ls => l.labels.map (·, pc) ++ labelTable (if l.body.isEmpty then pc else pc + 4) ls

/-- The instruction of an operation and its operands, by the forms of R75. -/
def instrOfOperands (labels : List (List Char × Nat)) (pc : Nat) (op : Op) (operands : List Operand) :
    Option Instr :=
  match op.usesField, operands with
  | (true, false, true), [.reg a, .imm k] => some (instrOf op ⟨0, a, 0, k⟩)
  | (true, true, false), [.reg a, .reg b] => some (instrOf op ⟨0, a, b, 0⟩)
  | (false, true, true), [.reg b, .imm k] => some (instrOf op ⟨0, 0, b, k⟩)
  | (true, false, false), [.reg a] => some (instrOf op ⟨0, a, 0, 0⟩)
  | (false, false, true), [.imm k] => some (instrOf op ⟨0, 0, 0, k⟩)
  | (false, false, true), [.name l] =>
    match labels.lookup l with
    | some target => (labelImm target pc).map fun k => instrOf op ⟨0, 0, 0, k⟩
    | none => none
  | (false, false, false), [] => some (instrOf op ⟨0, 0, 0, 0⟩)
  | _, _ => none

/-- The instruction of one line's text at address `pc`: "`MNEMONIC operands`; operands separated by commas"
(R74); a `NOP` is written with `opc` = 31 (R75). -/
def instrOfText (labels : List (List Char × Nat)) (pc : Nat) (t : List Char) : Option Instr :=
  let mnemonic := t.takeWhile fun c => !isBlank c
  let rest := trimBlanks (t.dropWhile fun c => !isBlank c)
  let operands := if rest.isEmpty then [] else (pieces (· == ',') rest).map fun p => operandOf (trimBlanks p)
  if mnemonic = "NOP".toList ∧ operands = [] then some (.nop 31)
  else match Op.all.find? fun op => mnemonicOf op == mnemonic with
    | some op => instrOfOperands labels pc op operands
    | none => none

/-- The words of the lines from address `pc` on; a line without an instruction gives none. -/
def assembleLines (c : Config) (labels : List (List Char × Nat)) : Nat → List SourceLine → Option (List Word)
  | _, [] => some []
  | pc, l :: ls =>
    if l.body.isEmpty then assembleLines c labels pc ls
    else match instrOfText labels pc l.body, assembleLines c labels (pc + 4) ls with
      | some i, some ws => if i.wellFormed c then some (encode c i :: ws) else none
      | _, _ => none

/-- The words of a program text (R74 to R76), none if some line is not of the syntax or a label is defined
twice. There are no pseudo-instructions (R76). -/
def assemble (c : Config) (text : List Char) : Option (List Word) :=
  let lines := (pieces (· == '\n') text).map sourceLineOf
  let labels := labelTable 0 lines
  if (labels.map (·.1)).Nodup then assembleLines c labels 0 lines else none

end Sys2Proof.Machine
end

