-- ==== Sys2Proof/Tests/Slice0.lean ====
section
/-! SUPPORT. Tests of the model. Expected values come from 95_test_vectors.md (section numbers in the
comments) or from the rule named; the witnesses at the end show that the hypotheses of the statements
can be met. -/

namespace Sys2Proof.Tests

open Sys2Proof Sys2Proof.Machine

/-! ## Helpers -/

/-- The reset state with default parameters and a program. -/
def boot0 (prog : List Word) : State := State.resetFor Config.default prog

/-- `s` with the word `v` at memory address `a`. -/
def withWord (s : State) (a : Nat) (v : Word) : State := { s with mem := s.mem.store32 a v }

/-- `s` with a value waiting at the input port. -/
def withIn (s : State) (v : Word) : State := s.offerInput v

/-- The answer is a next state of which `p` holds. -/
def nextHas (r : Result) (p : State → Bool) : Bool :=
  match r with
  | .next t => p t
  | .fault _ => false
  | .refused _ => false

/-- The answer is the fault entry `f` at an unchanged state. -/
def faultsAt (s : State) (f : CoreFault) : Bool :=
  nextHas (step s) fun t => t == s.takeFault f

/-! ## Well-formedness: each check refuses something -/

theorem test_wf_nop_assigned : (Instr.nop 21).wellFormed Config.default = false := by decide
theorem test_wf_nop_unassigned : (Instr.nop 22).wellFormed Config.default = true := by decide
theorem test_wf_register_31 : (Instr.subi 31 0).wellFormed Config.default = true := by decide
theorem test_wf_registers_missing : (Instr.add 3 17).registersExist = false := by decide
theorem test_wf_registers_present : (Instr.add 3 16).registersExist = true := by decide
theorem test_wf_config_default : Config.default.wf := by decide
theorem test_wf_config_stack_unaligned : ¬ { Config.default with stackSize := 1022 }.wf := by decide
theorem test_wf_config_stack_zero : ¬ { Config.default with stackSize := 0 }.wf := by decide
theorem test_wf_config_stack_large : ¬ { Config.default with stackSize := 2 ^ 30 + 4 }.wf := by decide
theorem test_wf_config_opcodes_repeat :
    ¬ { Config.default with opcodes := defaultOpcodes.set 3 2 }.wf := by decide
theorem test_wf_memory_unsorted : ¬ Memory.wf [(4, 1), (3, 1)] := by decide
theorem test_wf_memory_repeat : ¬ Memory.wf [(4, 1), (4, 2)] := by decide
theorem test_wf_memory_zero_listed : ¬ Memory.wf [(4, 0)] := by decide

/-! ## Decoding: words of 95_test_vectors.md (sections 1 to 3) under the default opcodes -/

theorem test_decode_subi : decodeTableWord 32 0x00008000 = some (.subi 0 0x8000) := by decide
theorem test_decode_add : decodeTableWord 32 0x08e80000 = some (.add 3 20) := by decide
theorem test_decode_addi : decodeTableWord 32 0x12345678 = some (.addi 8 0x5678) := by decide
theorem test_decode_mul : decodeTableWord 32 0x18c80000 = some (.mul 3 4) := by decide
theorem test_decode_shr : decodeTableWord 32 0x21000000 = some (.shr 4) := by decide
theorem test_decode_mov : decodeTableWord 32 0x2c0a0000 = some (.mov 16 5) := by decide
theorem test_decode_load : decodeTableWord 32 0x3002ffff = some (.load 1 0xffff) := by decide
theorem test_decode_store : decodeTableWord 32 0x39800001 = some (.store 6 1) := by decide
theorem test_decode_movi : decodeTableWord 32 0x40407fff = some (.movi 1 0x7fff) := by decide
theorem test_decode_cmp : decodeTableWord 32 0x49060000 = some (.cmp 4 3) := by decide
theorem test_decode_je : decodeTableWord 32 0x50000008 = some (.je 8) := by decide
theorem test_decode_jl : decodeTableWord 32 0x5800fff0 = some (.jl 0xfff0) := by decide
theorem test_decode_jle : decodeTableWord 32 0x60000004 = some (.jle 4) := by decide
theorem test_decode_jge : decodeTableWord 32 0x6800fff8 = some (.jge 0xfff8) := by decide
theorem test_decode_jbe : decodeTableWord 32 0x70000000 = some (.jbe 0) := by decide
theorem test_decode_jmp : decodeTableWord 32 0x7ffe0000 = some (.jmp 0) := by decide
theorem test_decode_call : decodeTableWord 32 0x87fe7fff = some (.call 0x7fff) := by decide
theorem test_decode_ret : decodeTableWord 32 0x8ffe0000 = some .ret := by decide
theorem test_decode_push : decodeTableWord 32 0x90400000 = some (.push 1) := by decide
theorem test_decode_pop : decodeTableWord 32 0x99800000 = some (.pop 6) := by decide
theorem test_decode_print : decodeTableWord 32 0xa1800000 = some (.print 6) := by decide
theorem test_decode_read : decodeTableWord 32 0xad000000 = some (.read 20) := by decide
theorem test_decode_nop : decodeTableWord 32 0xb0000000 = some (.nop 22) := by decide
theorem test_decode_nop_all_ones : decodeTableWord 32 0xffffffff = some (.nop 31) := by decide
/-- Section 2.1: bit 16 is ignored. -/
theorem test_decode_bit16 : decodeTableWord 32 0x0001ffff = decodeTableWord 32 0x0000ffff := by decide
/-- R73: the worked encodings, from the encoder's side. -/
theorem test_encode_words :
    [Instr.movi 0 5, .jl 0xfff0, .load 3 0, .cmp 1 0, .mul 3 4, .ret, .nop 31].map
      (encode Config.default) =
    [0x40000005, 0x5800fff0, 0x30060000, 0x48400000, 0x18c80000, 0x88000000, 0xf8000000] := by decide

/-! ## Assembler (R74 to R76; programs P3 and P6 of section 3) -/

theorem test_assemble_label : assemble Config.default
    "MOVI r0, 21\nCALL double\nPRINT r0\nRET\ndouble: ADD r0, r0\nRET".toList =
    some [0x40000015, 0x80000008, 0xa0000000, 0x88000000, 0x08000000, 0x88000000] := by decide
theorem test_assemble_operands : assemble Config.default
    "loop:\nLOAD r1, -1\nSUBI r0, 0x8000\nSTORE r2, 1\nJL loop\nNOP".toList =
    some [0x3002ffff, 0x00008000, 0x38800001, 0x5800fff0, 0xf8000000] := by decide
theorem test_assemble_refuses : assemble Config.default "ADD r17, r0".toList = none ∧
    assemble Config.default "MOVI r0, 32768".toList = none ∧
    assemble Config.default "JMP nowhere".toList = none ∧ assemble Config.default "ADD r1".toList = none := by
  decide

/-- The label names and signs that log entry 17 names (DESIGN CHOICE). -/
theorem test_assemble_labels_free : assemble Config.default "+5: JMP +5".toList = some [0x7800fffc] ∧
    assemble Config.default ": a b:JMP a b".toList = some [0x7800fffc] ∧
    assemble Config.default "MOVI r0, +5".toList = none := by decide

/-! ## The image (section 2.1) -/

def bytes8 : List Byte := [0x05, 0x00, 0x00, 0x40, 0x00, 0x00, 0x00, 0xa0]

theorem test_image_little : (decodeImage .little bytes8).toOption = some [0x40000005, 0xa0000000] := by
  decide
theorem test_image_big : (decodeImage .big bytes8).toOption = some [0x05000040, 0x000000a0] := by decide
theorem test_image_length_6 : decodeImage .little (bytes8.take 6) = .error .invalidEncoding := rfl
theorem test_image_empty : loadImage .little [] = .error .emptyImage := rfl
theorem test_load_codes : LoadError.code .invalidEncoding = some 1 ∧ loadErrorStatus = 1 := by decide

/-! ## Reset (R39) -/

theorem test_reset_sp : State.reset.reg SP = 1024 := by decide
theorem test_reset_ends : nextHas (step State.reset) (fun t => t.run == .halted .endOfProgram) = true := by
  decide

/-! ## ALU (section 2.2) -/

theorem test_subi_wraps : nextHas (step ((boot0 [0x00000001]).setReg 0 0x80000000))
    (fun t => t.reg 0 == 0x7fffffff && t.pc == 4) = true := by decide
theorem test_subi_sign_extends : nextHas (step (boot0 [0x00008000]))
    (fun t => t.reg 0 == 0x00008000) = true := by decide
theorem test_subi_flags_register : nextHas (step ((boot0 [0x04000001]).setReg F 0x40))
    (fun t => t.reg F == 0x3f) = true := by decide
theorem test_add_second_is_destination :
    nextHas (step (((boot0 [0x08400000]).setReg 1 5).setReg 0 10))
    (fun t => t.reg 0 == 15 && t.reg 1 == 5) = true := by decide
theorem test_add_same_register : nextHas (step ((boot0 [0x08840000]).setReg 2 0x40000000))
    (fun t => t.reg 2 == 0x80000000 && t.reg F == 0) = true := by decide
theorem test_addi_minus_one : nextHas (step (boot0 [0x1000ffff]))
    (fun t => t.reg 0 == 0xffffffff) = true := by decide
theorem test_addi_sp_stores_nothing : nextHas (step (boot0 [0x1180fffc]))
    (fun t => t.reg SP == 1020 && t.mem == []) = true := by decide
theorem test_mul_signed : nextHas (step (((boot0 [0x18c80000]).setReg 3 0xfffffffd).setReg 4 7))
    (fun t => t.reg 4 == 0xffffffeb && t.reg 3 == 0xfffffffd) = true := by decide
theorem test_mul_wraps : nextHas (step (((boot0 [0x18440000]).setReg 1 0x10000).setReg 2 0x10000))
    (fun t => t.reg 2 == 0) = true := by decide
theorem test_shr_clears_bit31 : nextHas (step ((boot0 [0x21000000]).setReg 4 0xffffffeb))
    (fun t => t.reg 4 == 0x7ffffff5) = true := by decide
theorem test_add_r1_first : faultsAt (boot0 [0x0c680000]) (.registerFault 0 17) = true := by decide
theorem test_add_r2_checked : faultsAt (boot0 [0x08e80000]) (.registerFault 0 20) = true := by decide

/-! ## Moves and memory (section 2.3) -/

theorem test_mov_second_is_destination : nextHas (step ((boot0 [0x28440000]).setReg 1 0xfffffffb))
    (fun t => t.reg 2 == 0xfffffffb && t.reg 1 == 0xfffffffb) = true := by decide
theorem test_movi_sign_extends : nextHas (step (boot0 [0x40008000]))
    (fun t => t.reg 0 == 0xffff8000) = true := by decide
theorem test_load_little_endian :
    nextHas (step (withWord ((boot0 [0x30060000]).setReg SP 1020) 1020 0xfffffffd))
    (fun t => t.reg 3 == 0xfffffffd) = true := by decide
theorem test_load_negative_offset :
    nextHas (step (withWord ((boot0 [0x3002ffff]).setReg SP 1016) 1020 0x2a))
    (fun t => t.reg 1 == 0x2a) = true := by decide
theorem test_load_fault_exact_address :
    faultsAt (boot0 [0x30028000]) (.memoryFault 0 132096) = true := by decide
theorem test_load_r1_not_checked : faultsAt (boot0 [0x37c40000]) (.memoryFault 0 1024) = true := by decide
theorem test_load_register_first : faultsAt (boot0 [0x30280000]) (.registerFault 0 20) = true := by decide
theorem test_store_bytes : nextHas (step (((boot0 [0x38800001]).setReg SP 1020).setReg 2 7))
    (fun t => t.mem == [(1016, 7)]) = true := by decide
theorem test_store_misaligned :
    nextHas (step (((boot0 [0x38000000]).setReg SP 1001).setReg 0 0x11223344))
    (fun t => t.mem == [(1001, 0x44), (1002, 0x33), (1003, 0x22), (1004, 0x11)]) = true := by decide
theorem test_store_below_zero : faultsAt (boot0 [0x38000101]) (.memoryFault 0 (-4)) = true := by decide
theorem test_store_sp_itself : nextHas (step (boot0 [0x39800001]))
    (fun t => t.mem == [(1021, 4)]) = true := by decide
/-- R46's example. -/
theorem test_read_across_words : (Memory.store32 [] 0 0x11223344).load32 1 = 0x00112233 := by decide

/-! ## Compare (section 2.4): a is x[0], b is x[1] -/

/-- F after `CMP r1, r0`. -/
def cmpF (a b : Word) : Option Word :=
  match step (((boot0 [0x48400000]).setReg 0 a).setReg 1 b) with
  | .next t => some (t.reg F)
  | .fault _ => none
  | .refused _ => none

theorem test_cmp_borrow : cmpF 5 10 = some 0x081 := by decide
theorem test_cmp_equal : cmpF 7 7 = some 0x040 := by decide
theorem test_cmp_overflow_below : cmpF 0x80000000 1 = some 0x800 := by decide
theorem test_cmp_overflow_above : cmpF 0 0x80000000 = some 0x881 := by decide
theorem test_cmp_no_overflow : cmpF 0x80000000 0 = some 0x080 := by decide
theorem test_cmp_unsigned_below : cmpF 1 0xffffffff = some 0x001 := by decide
/-- `CMP r16, r0`: both sources are read before F is written. -/
theorem test_cmp_reads_flags_first :
    nextHas (step (((boot0 [0x4c000000]).setReg F 0x81).setReg 0 0x81))
    (fun t => t.reg F == 0x040) = true := by decide
theorem test_cmp_field_17 : faultsAt (boot0 [0x48220000]) (.registerFault 0 17) = true := by decide

/-! ## Branches (section 2.5) -/

/-- The 16 values of F of the table, in its order. -/
def flagRows : List Word :=
  [0x000, 0x001, 0x040, 0x041, 0x080, 0x081, 0x0c0, 0x0c1,
   0x800, 0x801, 0x840, 0x841, 0x880, 0x881, 0x8c0, 0x8c1]

/-- Which rows take the branch `i`, by one step from pc 0 with offset 8. -/
def takenRows (i : BitVec 16 → Instr) : List Bool :=
  flagRows.map fun f => nextHas (exec (i 8) ((boot0 []).setReg F f)) fun t => t.pc == 12

theorem test_je_table : takenRows .je =
    [false, false, true, true, false, false, true, true,
     false, false, true, true, false, false, true, true] := by decide
theorem test_jl_table : takenRows .jl =
    [false, false, false, false, true, true, true, true,
     true, true, true, true, false, false, false, false] := by decide
theorem test_jle_table : takenRows .jle =
    [false, false, true, true, true, true, true, true,
     true, true, true, true, false, false, true, true] := by decide
theorem test_jge_table : takenRows .jge =
    [true, true, true, true, false, false, false, false,
     false, false, false, false, true, true, true, true] := by decide
theorem test_jbe_table : takenRows .jbe =
    [false, true, true, true, false, true, true, true,
     false, true, true, true, false, true, true, true] := by decide
theorem test_jl_back : nextHas (exec (.jl 0xfff0) (((boot0 []).setReg F 0x80).setPc 24))
    (fun t => t.pc == 12) = true := by decide
theorem test_jmp_forward : nextHas (exec (.jmp 12) ((boot0 []).setPc 16))
    (fun t => t.pc == 32) = true := by decide
/-- Section 2.8: the target wraps, and the next fetch faults there. -/
theorem test_jmp_wraps : nextHas (step (boot0 [0x7800fff8]))
    (fun t => t.pc == 0xfffffffc && faultsAt t (.fetchFault 0xfffffffc)) = true := by decide

/-! ## Call, return and stack (section 2.6, P3) -/

theorem test_call_pushes : nextHas (exec (.call 8) ((boot0 []).setPc 4))
    (fun t => t.pc == 16 && t.reg SP == 1020 && t.mem == [(1020, 8)]) = true := by decide
theorem test_call_faults_whole : faultsAt ((boot0 [0x80000000]).setReg SP 2) (.memoryFault 0 (-2)) = true := by
  decide
theorem test_ret_pops : nextHas (exec .ret (withWord ((boot0 []).setReg SP 1020) 1020 8))
    (fun t => t.pc == 8 && t.reg SP == 1024 && t.mem == [(1020, 8)]) = true := by decide
theorem test_ret_halts_ignoring_fields : nextHas (step (boot0 [0x8ffe0000]))
    (fun t => t.run == .halted .emptyStackReturn && t.pc == 0) = true := by decide
theorem test_push_bytes : nextHas (step ((boot0 [0x90000000]).setReg 0 7))
    (fun t => t.reg SP == 1020 && t.mem == [(1020, 7)]) = true := by decide
theorem test_push_sp : nextHas (step (boot0 [0x91800000]))
    (fun t => t.reg SP == 1020 && t.mem == [(1020, 0xfc), (1021, 0x03)]) = true := by decide
theorem test_pop_keeps_memory : nextHas (step (withWord ((boot0 [0x98000000]).setReg SP 1020) 1020 7))
    (fun t => t.reg 0 == 7 && t.reg SP == 1024 && t.mem == [(1020, 7)]) = true := by decide
theorem test_pop_sp : nextHas (step (withWord ((boot0 [0x99800000]).setReg SP 1020) 1020 100))
    (fun t => t.reg SP == 104) = true := by decide
theorem test_pop_empty : faultsAt (boot0 [0x98000000]) (.memoryFault 0 1024) = true := by decide

/-! ## I/O and NOP (section 2.7) -/

theorem test_print_event : nextHas (step (boot0 [0xa1800000]))
    (fun t => t.output == [0x400] && t.pc == 4) = true := by decide
theorem test_read_takes : nextHas (step (withIn (withIn (boot0 [0xa8800000]) 0xfffffff4) 9))
    (fun t => t.reg 2 == 0xfffffff4 && t.input == [9]) = true := by decide
theorem test_read_waits : nextHas (step (boot0 [0xa8800000])) (fun t => t == boot0 [0xa8800000]) = true ∧
    (boot0 [0xa8800000]).stepEnabled = false := by decide
theorem test_read_field_first : faultsAt (boot0 [0xad000000]) (.registerFault 0 20) = true := by decide
theorem test_nop : nextHas (step (boot0 [0xffffffff]))
    (fun t => t == (boot0 [0xffffffff]).setPc 4) = true := by decide
/-- A token of -12 is offered; one outside the 32-bit range and a malformed one are not (D19). -/
theorem test_tokens : ((boot0 []).offerToken (some (-12))).input = [0xfffffff4] ∧
    ((boot0 []).offerToken (some 99999999999)).input = [] ∧ ((boot0 []).offerToken none).input = [] := by
  decide
/-- Tokens after one without a value are not offered (D19; log entry 15). -/
theorem test_token_stream :
    ((boot0 []).offerTokens [some 5, some 99999999999, some 7]).input = [5] ∧
    ((boot0 []).offerTokens [some (-2147483648), some 2147483647, none, some 7]).input =
      [0x80000000, 0x7fffffff] := by decide
/-- E12: the rendered lines. -/
theorem test_render :
    [0x00000005, 0xffffffff, 0x80000000, 0x7ffffff5].map renderEvent =
    ["5 (0x5)\n".toList, "-1 (0xffffffff)\n".toList, "-2147483648 (0x80000000)\n".toList,
     "2147483637 (0x7ffffff5)\n".toList] := by decide
theorem test_exit_after_halt : exitStatus (.halted .emptyStackReturn) = some 0 := rfl

/-! ## Executor (section 2.8) -/

theorem test_end_of_program : nextHas (step ((boot0 [0xb0000000]).setPc 4))
    (fun t => t.run == .halted .endOfProgram && t.pc == 4) = true := by decide
theorem test_fetch_misaligned : faultsAt ((boot0 [0x78000002]).setPc 6) (.fetchFault 6) = true := by decide
theorem test_fetch_beyond : faultsAt ((boot0 [0x78000008]).setPc 12) (.fetchFault 12) = true := by decide

/-! ## Witnesses: every hypothesis of the statements can be met

One theorem per statement that has hypotheses, with one conjunct per clause, at boundary values where the
clause has a range. -/

/-- The hypotheses of `DecodesTo` under the default parameters: `w` is a word of operation `op`. -/
abbrev wordOf (op : Op) (w : Word) : Prop :=
  Config.default.opcodesOk ∧ (fieldsOf w).opc = Config.default.opcodeOf op

/-- A register field at the lower boundary of those that fault, one at the upper, the last legal one. -/
abbrev badFields : Prop :=
  16 < (17 : RegField).toNat ∧ 16 < (31 : RegField).toNat ∧ (16 : RegField).toNat ≤ 16

/-- SP = 1020, so that 1020, the highest address in bounds, is the top of the stack. -/
def top1020 : State := (boot0 []).setReg SP 1020

theorem exists_length {α : Type} (n : Nat) (x : α) : ∃ l : List α, l.length = n :=
  ⟨List.replicate n x, List.length_replicate⟩

theorem witness_DecodeOfEncodeIsIdentity : Config.default.opcodesOk ∧
    (Instr.nop 31).wellFormed Config.default = true ∧ (Instr.subi 31 0xffff).wellFormed Config.default = true := by
  decide

theorem default_unassigned (opc : BitVec 5) (h : Config.default.unassigned opc = true) (op : Op) :
    Config.default.opcodeOf op ≠ opc := by
  have := (List.all_eq_true.1 h) op (Op.mem_all op)
  simpa using this

theorem witness_EveryWordNamesOneOperation : Config.default.opcodesOk ∧
    (decode Config.default 0x00000003).op = some .subi ∧
    Config.default.opcodeOf .subi = (0x00000003 : Word).extractLsb' 27 5 ∧
    ∀ op, Config.default.opcodeOf op ≠ (0xb0000000 : Word).extractLsb' 27 5 :=
  ⟨by decide, by decide, by decide, default_unassigned _ (by decide)⟩

theorem witness_Bit16IsIgnored : (0x00018000 : Word) ≠ 0x00008000 ∧
    ∀ k, k < 32 → k ≠ 16 → (0x00018000 : Word).getLsbD k = (0x00008000 : Word).getLsbD k := by decide

theorem witness_UnusedFieldsChangeNothing : (0x12345678 : Word) ≠ 0x12005678 ∧
    (fieldsOf 0x12345678).opc = (fieldsOf 0x12005678).opc ∧
    Config.default.operationOf (fieldsOf 0x12345678).opc = some .addi ∧
    Op.addi.usesField = (true, false, true) ∧ (fieldsOf 0x12345678).r1 = (fieldsOf 0x12005678).r1 ∧
    (fieldsOf 0x12345678).imm16 = (fieldsOf 0x12005678).imm16 ∧
    Config.default.operationOf (fieldsOf 0xb0000000).opc = none := by decide

theorem witness_ImageDecodesByGroups : (bytes8.take 5).length % 4 ≠ 0 ∧ bytes8.length % 4 = 0 ∧
    ([] : List Byte).length % 4 = 0 ∧
    bytes8[4 * 1]? = some 0x00 ∧ bytes8[4 * 1 + 1]? = some 0x00 ∧ bytes8[4 * 1 + 2]? = some 0x00 ∧
    bytes8[4 * 1 + 3]? = some 0xa0 := by decide

theorem witness_ResetValues : Config.default.wf ∧ { Config.default with stackSize := 4 }.wf ∧
    { Config.default with stackSize := 2 ^ 30 }.wf ∧ (0 : RegIx) ≠ SP ∧ (F : RegIx) ≠ SP := by decide

theorem witness_BootStartsInReset : bytes8.length % 4 = 0 ∧ 0 < bytes8.length ∧
    bytes8.length ≤ 4 * 2 ^ 29 ∧
    (∃ image : List Byte, image.length = 4 * 2 ^ 29) :=
  ⟨by decide, by decide, by decide, exists_length _ 0⟩

theorem witness_ResetMeetsInvariant : Config.default.wf ∧ ([] : List Word).length ≤ 2 ^ 29 ∧
    (∃ prog : List Word, prog.length = 2 ^ 29) :=
  ⟨by decide, by decide, exists_length _ 0⟩

/-- A state with memory that meets the invariant. -/
def pushed : State := withWord ((boot0 [0x98000000, 0x98000000]).setReg SP 1020) 1020 7

theorem witness_StepKeepsInvariant : pushed.Inv ∧ ∃ t, step pushed = .next t ∧ t.reg 0 = 7 :=
  ⟨⟨by decide, by decide, by unfold State.memOk; decide, trivial⟩, _, rfl, by decide⟩

theorem witness_StepRunsDecodedInstruction : (boot0 [0x40000005]).run = .running ∧
    (boot0 [0x40000005]).pc.toNat % 4 = 0 ∧
    (boot0 [0x40000005]).pc.toNat < 4 * (boot0 [0x40000005]).prog.length := by decide

theorem witness_PlacedWordRunsNext : (boot0 [0, 0]).pc.toNat % 4 = 0 ∧ 1 < (boot0 [0, 0]).prog.length ∧
    1 ≠ (boot0 [0, 0]).pc.toNat / 4 := by decide

theorem witness_EndOfProgramHalts : ((boot0 [0]).setPc 4).run = .running ∧
    ((boot0 [0]).setPc 4).pc.toNat = 4 * ((boot0 [0]).setPc 4).prog.length := by decide

theorem witness_BadPcFaultsAtFetch : ((boot0 [0]).setPc 3).run = .running ∧
    ((boot0 [0]).setPc 3).pc.toNat % 4 ≠ 0 ∧
    4 * ((boot0 [0]).setPc 8).prog.length < ((boot0 [0]).setPc 8).pc.toNat := by decide

theorem witness_EndedRunTakesNoStep : ((boot0 []).halt .endOfProgram).run ≠ .running ∧
    ((boot0 []).takeFault (.fetchFault 0)).run ≠ .running := by decide

theorem witness_RunningCoreGoesOn : (boot0 [0xa8800000]).run = .running ∧
    (boot0 [0xa8800000]).stepEnabled = false ∧ (boot0 [0x40000005]).stepEnabled = true := by decide

theorem witness_FaultsArePrecise :
    (∃ t, step (boot0 [0x0c680000]) = .next t ∧ t.run = .faulted (.registerFault 0 17)) ∧
    (∃ t, step (boot0 [0x98000000]) = .next t ∧ t.run = .faulted (.memoryFault 0 1024)) ∧
    (∃ t, step ((boot0 [0]).setPc 2) = .next t ∧ t.run = .faulted (.fetchFault 2)) :=
  ⟨⟨_, rfl, by decide⟩, ⟨_, rfl, by decide⟩, ⟨_, rfl, by decide⟩⟩

theorem witness_ExactlyTwoWaysToHalt :
    (∃ t, step (boot0 []) = .next t ∧ t.run = .halted .endOfProgram) ∧
    (∃ t, step (boot0 [0x88000000]) = .next t ∧ t.run = .halted .emptyStackReturn) ∧
    (boot0 [0x88000000]).current = some .ret ∧
    (boot0 [0x88000000]).reg SP = BitVec.ofNat 32 (boot0 [0x88000000]).cfg.stackSize :=
  ⟨⟨_, rfl, by decide⟩, ⟨_, rfl, by decide⟩, by decide, by decide⟩

theorem witness_UnfaultedStepHadNormalPc :
    (∃ t, step (boot0 [0x40000005]) = .next t ∧ t.safe = true) ∧
    (∃ t, step (boot0 []) = .next t ∧ t.safe = true) :=
  ⟨⟨_, rfl, by decide⟩, ⟨_, rfl, by decide⟩⟩

theorem witness_ProgramAndParametersAreFixed : ∃ t, step (boot0 [0x90000000]) = .next t ∧ t.mem = [] ∧
    t.reg SP = 1020 := ⟨_, rfl, by decide, by decide⟩

theorem witness_EventsAreOnlyAppended :
    (∃ t, step (boot0 [0xa1800000]) = .next t ∧ (boot0 [0xa1800000]).current = some (.print (regField SP)) ∧
      t.output = [1024]) ∧
    (∃ t, step (boot0 [0x40000005]) = .next t ∧ t.output = []) :=
  ⟨⟨_, rfl, by decide, by decide⟩, ⟨_, rfl, by decide⟩⟩

theorem witness_OnlyReadConsumesInput :
    (∃ t, step (withIn (boot0 [0xa8800000]) 5) = .next t ∧ t.input ≠ (withIn (boot0 [0xa8800000]) 5).input) ∧
    (∃ t, step (withIn (boot0 [0x40000005]) 5) = .next t ∧ t.input = [5]) :=
  ⟨⟨_, rfl, by decide⟩, ⟨_, rfl, by decide⟩⟩

theorem witness_OnlyReadDependsOnInput : (∀ r, (boot0 [0x90000000]).current ≠ some (.read r)) ∧
    ∃ t, step (boot0 [0x90000000]) = .next t := by
  have h : (boot0 [0x90000000]).current = some (.push 0) := by decide
  refine ⟨fun r hr => ?_, _, rfl⟩
  rw [h] at hr
  cases hr

theorem witness_InstructionsWriteOnlyTheirOwn : (boot0 []).mem.wf ∧
    (∃ t, exec (.push 0) (boot0 []) = .next t) ∧ (boot0 []).storeAddr (.push 0) = some 1020 ∧
    (∃ t, exec (.movi 0 5) (boot0 []) = .next t) ∧ (boot0 []).storeAddr (.movi 0 5) = none ∧
    (Instr.movi 0 5).destination ≠ some (regField 1) ∧ (1 : RegIx) ∉ implicitWrites (.movi 0 5) :=
  ⟨by decide, ⟨_, rfl⟩, by decide, ⟨_, rfl⟩, by decide, by decide, by decide⟩

theorem witness_StackPointerDiscipline : (boot0 [0x90000000]).cfg.stackSizeOk ∧
    (boot0 [0x90000000]).spDisciplined ∧ ((boot0 [0x90000000]).setReg SP 0).spDisciplined ∧
    (∀ i, (boot0 [0x90000000]).current = some i → i.destination ≠ some (regField SP)) ∧
    ∃ t, step (boot0 [0x90000000]) = .next t ∧ t.reg SP = 1020 := by
  have h : (boot0 [0x90000000]).current = some (.push 0) := by decide
  exact ⟨by decide, by unfold State.spDisciplined; decide, by unfold State.spDisciplined; decide,
    fun i hi => by rw [h] at hi; cases hi; decide, _, rfl, by decide⟩

theorem witness_FlagsDiscipline :
    (∀ i, (boot0 [0x48c60000]).current = some i → i.destination ≠ some (regField F)) ∧
    (∃ t, step (boot0 [0x48c60000]) = .next t ∧ t.reg F = 0x40) ∧ fourFlagBits 0x8c1 ∧
    (∀ r1 r2, (boot0 [0x90000000]).current ≠ some (.cmp r1 r2)) := by
  have h : (boot0 [0x48c60000]).current = some (.cmp 3 3) := by decide
  have h' : (boot0 [0x90000000]).current = some (.push 0) := by decide
  refine ⟨fun i hi => by rw [h] at hi; cases hi; decide, ⟨_, rfl, by decide⟩, ?_,
    fun r1 r2 hr => by rw [h'] at hr; cases hr⟩
  intro k h0 h6 h7 h11
  by_cases hk : k < 12
  · interval_cases k <;> first | contradiction | decide
  · exact Nat.testBit_lt_two_pow (Nat.lt_of_lt_of_le (by decide : (0x8c1 : Word).toNat < 2 ^ 12)
      (Nat.pow_le_pow_right (by decide) (by omega)))

theorem witness_RegisterFieldCheck :
    (Instr.add 17 20).usedRegs.find? (fun r => 16 < r.toNat) = some 17 ∧
    (Instr.cmp 16 31).usedRegs.find? (fun r => 16 < r.toNat) = some 31 ∧
    (Instr.add 16 0).usedRegs.find? (fun r => 16 < r.toNat) = none ∧
    ∃ t, exec (.add 16 0) ((boot0 []).takeFault (.registerFault 0 17)) = .next t ∧
      t.run = .faulted (.registerFault 0 17) := ⟨by decide, by decide, by decide, _, rfl, by decide⟩

theorem witness_AccessOutOfBoundsFaults :
    ¬ ((boot0 []).setReg SP 1021).inBounds (((boot0 []).setReg SP 1021).slotAddr 0) ∧
    ¬ ((boot0 []).setReg SP 3).inBounds (((boot0 []).setReg SP 3).slotAddr 1) ∧
    ¬ ((boot0 []).setReg SP 3).inBounds ((boot0 []).setReg SP 3).pushAddr ∧
    ¬ ((boot0 []).setReg SP 1025).inBounds ((boot0 []).setReg SP 1025).pushAddr ∧
    ¬ ((boot0 []).setReg SP 1021).inBounds ((boot0 []).setReg SP 1021).topAddr ∧
    ¬ ((boot0 []).setReg SP 0xffffffff).inBounds ((boot0 []).setReg SP 0xffffffff).topAddr ∧
    ((boot0 []).setReg SP 1021).reg SP ≠ BitVec.ofNat 32 ((boot0 []).setReg SP 1021).cfg.stackSize := by
  decide

theorem witness_WrappedAddressAgrees : (boot0 []).cfg.stackSizeOk ∧
    { Config.default with stackSize := 2 ^ 30 }.stackSizeOk ∧
    (boot0 []).inBounds ((boot0 []).slotAddr 1) ∧ (boot0 []).inBounds ((boot0 []).slotAddr 256) := by decide

theorem witness_StoreThenLoad : (boot0 []).mem.wf ∧ (boot0 []).inBounds ((boot0 []).slotAddr 1) ∧
    (boot0 []).inBounds ((boot0 []).slotAddr 256) := by decide

theorem witness_PushThenPop : (0 : RegIx) ≠ SP ∧ (F : RegIx) ≠ SP ∧ (boot0 []).mem.wf ∧
    (boot0 []).inBounds (boot0 []).pushAddr ∧
    ((boot0 []).setReg SP 4).inBounds ((boot0 []).setReg SP 4).pushAddr := by decide

theorem witness_CallThenReturn : (boot0 []).cfg.stackSizeOk ∧ (boot0 []).mem.wf ∧
    (boot0 []).inBounds (boot0 []).pushAddr ∧
    ((boot0 []).setReg SP 4).inBounds ((boot0 []).setReg SP 4).pushAddr := by decide

theorem witness_BranchesAfterCompare :
    ∃ t, exec (.cmp (regField 1) (regField F)) (boot0 []) = .next t ∧ t.reg F = 0x40 := ⟨_, rfl, by decide⟩

theorem witness_BranchesReadFourBits : (0x8c1 : Word) ≠ 0xffffffff ∧
    (∀ k ∈ [0, 6, 7, 11], (0x8c1 : Word).getLsbD k = (0xffffffff : Word).getLsbD k) ∧
    Instr.jbe 4 ∈ [Instr.je 4, .jl 4, .jle 4, .jge 4, .jbe 4] := by decide

theorem witness_SubiSubtractsImmediate : wordOf .subi 0x00000003 ∧ badFields := by decide
theorem witness_AddAddsIntoSecond : wordOf .add 0x08400000 ∧ badFields := by decide
theorem witness_AddiAddsImmediate : wordOf .addi 0x10000005 ∧ badFields := by decide
theorem witness_MulKeepsLowWord : wordOf .mul 0x18440000 ∧ badFields := by decide
theorem witness_ShrHalves : wordOf .shr 0x21000000 ∧ badFields := by decide
theorem witness_MovCopiesFirstIntoSecond : wordOf .mov 0x28440000 ∧ badFields := by decide
theorem witness_LoadReadsSlot : wordOf .load 0x30060000 ∧ badFields ∧
    top1020.inBounds (top1020.slotAddr 0) ∧ top1020.inBounds (top1020.slotAddr 255) := by decide
theorem witness_StoreWritesSlot : wordOf .store 0x38800001 ∧ badFields ∧ top1020.mem.wf ∧
    top1020.inBounds (top1020.slotAddr 0) ∧ top1020.inBounds (top1020.slotAddr 255) := by decide
theorem witness_MoviLoadsSignedImmediate : wordOf .movi 0x40000005 ∧ badFields := by decide
theorem witness_CmpWritesFlags : wordOf .cmp 0x48400000 ∧ badFields := by decide
theorem witness_JeTakenOnZero : wordOf .je 0x50000008 ∧
    (0x040 : Word).getLsbD 6 = true ∧ ¬ (0x8bf : Word).getLsbD 6 = true := by decide
theorem witness_JlTakenOnSignXorOverflow : wordOf .jl 0x5800fff0 ∧
    (0x080 : Word).getLsbD 7 ≠ (0x080 : Word).getLsbD 11 ∧
    ¬ (0x880 : Word).getLsbD 7 ≠ (0x880 : Word).getLsbD 11 := by decide
theorem witness_JleTakenOnLessOrZero : wordOf .jle 0x60000004 ∧ (0x040 : Word).getLsbD 6 = true ∧
    ¬ ((0x880 : Word).getLsbD 7 ≠ (0x880 : Word).getLsbD 11 ∨ (0x880 : Word).getLsbD 6 = true) := by decide
theorem witness_JgeTakenOnSignEqualsOverflow : wordOf .jge 0x6800fff8 ∧
    (0x880 : Word).getLsbD 7 = (0x880 : Word).getLsbD 11 ∧
    ¬ (0x080 : Word).getLsbD 7 = (0x080 : Word).getLsbD 11 := by decide
theorem witness_JbeTakenOnZeroOrCarry : wordOf .jbe 0x70000000 ∧ (0x001 : Word).getLsbD 0 = true ∧
    ¬ ((0x880 : Word).getLsbD 6 = true ∨ (0x880 : Word).getLsbD 0 = true) := by decide
theorem witness_JmpAlwaysTaken : wordOf .jmp 0x7800000c := by decide
theorem witness_CallPushesReturnAddress : wordOf .call 0x80000008 ∧ (boot0 []).mem.wf ∧
    (boot0 []).inBounds (boot0 []).pushAddr ∧
    ((boot0 []).setReg SP 4).inBounds ((boot0 []).setReg SP 4).pushAddr := by decide
theorem witness_RetHaltsOrPops : wordOf .ret 0x88000000 ∧
    (boot0 []).reg SP = BitVec.ofNat 32 (boot0 []).cfg.stackSize ∧
    top1020.reg SP ≠ BitVec.ofNat 32 top1020.cfg.stackSize ∧ top1020.inBounds top1020.topAddr ∧
    ((boot0 []).setReg SP 0).inBounds ((boot0 []).setReg SP 0).topAddr := by decide
theorem witness_PushStoresBelowSp : wordOf .push 0x90000000 ∧ badFields ∧ (boot0 []).mem.wf ∧
    (boot0 []).inBounds (boot0 []).pushAddr ∧
    ((boot0 []).setReg SP 4).inBounds ((boot0 []).setReg SP 4).pushAddr := by decide
theorem witness_PopLoadsAboveSp : wordOf .pop 0x98000000 ∧ badFields ∧
    top1020.inBounds top1020.topAddr ∧ (0 : RegIx) ≠ SP ∧
    ((boot0 []).setReg SP 0).inBounds ((boot0 []).setReg SP 0).topAddr := by decide
theorem witness_PrintEmitsRegister : wordOf .print 0xa0000000 ∧ badFields := by decide
theorem witness_ReadTakesOldestInput : wordOf .read 0xa8800000 ∧ badFields ∧
    (withIn (withIn (boot0 []) 5) 9).input = 5 :: [9] ∧ (boot0 []).input = [] := by decide
theorem witness_UnassignedOpcodeIsNop :
    ∀ op, Config.default.opcodeOf op ≠ (fieldsOf 0xffffffff).opc := default_unassigned _ (by decide)

end Sys2Proof.Tests
end

section
/-! PROOFS. The encoding: the fields of a word, bit 16, and the image by groups of 4 bytes
(30_encoding.md R60 to R65). -/

namespace Sys2Proof

/-! ## The fields of a word as arithmetic (R60) -/

theorem fieldsOf_opc_toNat (w : Word) : (fieldsOf w).opc.toNat = w.toNat / 2 ^ 27 := by
  have hw := w.isLt
  simp only [fieldsOf, BitVec.extractLsb'_toNat, Nat.shiftRight_eq_div_pow]
  omega

theorem fieldsOf_r1_toNat (w : Word) : (fieldsOf w).r1.toNat = w.toNat / 2 ^ 22 % 32 := by
  simp only [fieldsOf, BitVec.extractLsb'_toNat, Nat.shiftRight_eq_div_pow, Nat.reducePow]

theorem fieldsOf_r2_toNat (w : Word) : (fieldsOf w).r2.toNat = w.toNat / 2 ^ 17 % 32 := by
  simp only [fieldsOf, BitVec.extractLsb'_toNat, Nat.shiftRight_eq_div_pow, Nat.reducePow]

theorem fieldsOf_imm16_toNat (w : Word) : (fieldsOf w).imm16.toNat = w.toNat % 2 ^ 16 := by
  simp only [fieldsOf, BitVec.extractLsb'_toNat, Nat.shiftRight_zero]

open Machine in
/-- The immediate is the two's complement reading of the low 16 bits (R62). -/
theorem sextImm_fieldsOf_toInt (w : Word) :
    (sextImm (fieldsOf w).imm16).toInt =
      if w.toNat % 2 ^ 16 < 2 ^ 15 then ((w.toNat % 2 ^ 16 : Nat) : Int)
      else ((w.toNat % 2 ^ 16 : Nat) : Int) - 2 ^ 16 := by
  rw [sextImm_toInt, BitVec.toInt_eq_toNat_cond, fieldsOf_imm16_toNat]
  split <;> split <;> omega

/-- Settles O5: one lemma per field, and the sign extension of the immediate field. -/
theorem fieldsAndImmediateOfAWord : Obligations.FieldsAndImmediateOfAWord := fun w =>
  ⟨fieldsOf_opc_toNat w, fieldsOf_r1_toNat w, fieldsOf_r2_toNat w, fieldsOf_imm16_toNat w,
    sextImm_fieldsOf_toInt w⟩

/-! ## Bit 16 (R61) -/

/-- A bit range depends on its own bits only. -/
theorem extractLsb'_eq_of_bits {w v : Word} {start len : Nat}
    (h : ∀ k, start ≤ k → k < start + len → w.getLsbD k = v.getLsbD k) :
    w.extractLsb' start len = v.extractLsb' start len := by
  apply BitVec.eq_of_getLsbD_eq
  intro i hi
  simp only [BitVec.getLsbD_extractLsb', h (start + i) (by omega) (by omega)]

/-- No field holds bit 16 (R61). -/
theorem fieldsOf_eq_of_bits {w v : Word}
    (h : ∀ k, k < 32 → k ≠ 16 → w.getLsbD k = v.getLsbD k) : fieldsOf w = fieldsOf v := by
  simp only [fieldsOf, Fields.mk.injEq]
  refine ⟨?opc, ?r1, ?r2, ?imm16⟩ <;>
    exact extractLsb'_eq_of_bits fun k _ _ => h k (by omega) (by omega)

/-- The decoder looks at the fields only. -/
theorem decode_eq_of_fieldsOf_eq (c : Config) {w v : Word} (h : fieldsOf w = fieldsOf v) :
    decode c w = decode c v := by
  simp only [decode, h]

/-- Settles O3: bit 16 lies in no field, and a word decodes by its fields. -/
theorem bit16IsIgnored : Obligations.Bit16IsIgnored := by
  intro c w v h
  have hd : decode c w = decode c v := decode_eq_of_fieldsOf_eq c (fieldsOf_eq_of_bits h)
  exact ⟨hd, fun s => by rw [hd]⟩

/-! ## The image (R64, R65) -/

/-- `words` holds one word per consecutive 4-byte group of `image`, in order (R64, R65). -/
def IsGroupsOf (o : ByteOrder) (words : List Word) (image : List Byte) : Prop :=
  4 * words.length = image.length ∧
  ∀ (k : Nat) (b0 b1 b2 b3 : Byte), image[4 * k]? = some b0 → image[4 * k + 1]? = some b1 →
    image[4 * k + 2]? = some b2 → image[4 * k + 3]? = some b3 →
    words[k]? = some (wordOfBytes o b0 b1 b2 b3)

theorem isGroupsOf_nil (o : ByteOrder) : IsGroupsOf o [] [] :=
  ⟨rfl, fun _ _ _ _ _ h => by simp at h⟩

theorem IsGroupsOf.cons {o : ByteOrder} {words : List Word} {rest : List Byte}
    (h : IsGroupsOf o words rest) (b0 b1 b2 b3 : Byte) :
    IsGroupsOf o (wordOfBytes o b0 b1 b2 b3 :: words) (b0 :: b1 :: b2 :: b3 :: rest) := by
  obtain ⟨hlen, hword⟩ := h
  refine ⟨by simp only [List.length_cons]; omega, fun k a0 a1 a2 a3 h0 h1 h2 h3 => ?_⟩
  cases k with
  | zero =>
    simp only [Nat.mul_zero, Nat.zero_add, List.getElem?_cons_zero, List.getElem?_cons_succ,
      Option.some.injEq] at h0 h1 h2 h3
    simp only [List.getElem?_cons_zero, h0, h1, h2, h3]
  | succ k =>
    simp only [Nat.mul_succ, List.getElem?_cons_succ] at h0 h1 h2 h3
    exact hword k a0 a1 a2 a3 h0 h1 h2 h3

/-- What the image decoder can answer: the words of the groups, or `InvalidEncoding` where bytes
are left over (R65). -/
theorem decodeImage_cases (o : ByteOrder) : ∀ image : List Byte,
    (∃ words, decodeImage o image = .ok words ∧ IsGroupsOf o words image) ∨
    (image.length % 4 ≠ 0 ∧ decodeImage o image = .error .invalidEncoding)
  | [] => .inl ⟨[], rfl, isGroupsOf_nil o⟩
  | [_] | [_, _] | [_, _, _] => .inr ⟨by simp, rfl⟩
  | b0 :: b1 :: b2 :: b3 :: rest => by
    rcases decodeImage_cases o rest with ⟨words, hok, hgroups⟩ | ⟨hlen, herr⟩
    · exact .inl ⟨_, by simp only [decodeImage, hok], hgroups.cons b0 b1 b2 b3⟩
    · refine .inr ⟨?_, by simp only [decodeImage, herr]⟩
      simp only [List.length_cons]
      omega

theorem decodeImage_of_partial_group (o : ByteOrder) {image : List Byte}
    (h : image.length % 4 ≠ 0) : decodeImage o image = .error .invalidEncoding := by
  rcases decodeImage_cases o image with ⟨words, -, hlen, -⟩ | ⟨-, herr⟩
  · omega
  · exact herr

theorem decodeImage_of_whole_groups (o : ByteOrder) {image : List Byte}
    (h : image.length % 4 = 0) :
    ∃ words, decodeImage o image = .ok words ∧ IsGroupsOf o words image :=
  (decodeImage_cases o image).resolve_right fun hpartial => hpartial.1 h

open Machine in
/-- An image that does not decode starts no core (R132). -/
theorem boot_of_decodeImage_error {c : Config} {image : List Byte} {e : LoadError}
    (h : decodeImage c.byteOrder image = .error e) : boot c image = .error e := by
  simp only [boot, loadImage, h]

/-- Settles O8: an image of whole groups decodes to their words, and any other is refused by the
decoder and so by the boot sequence. -/
theorem imageDecodesByGroups : Obligations.ImageDecodesByGroups := by
  intro c image
  refine ⟨fun h => ?partialGroup, fun h => ?wholeGroups⟩
  case partialGroup =>
    have herr := decodeImage_of_partial_group c.byteOrder h
    exact ⟨herr, boot_of_decodeImage_error herr⟩
  case wholeGroups =>
    obtain ⟨words, hok, hlen, hword⟩ := decodeImage_of_whole_groups c.byteOrder h
    exact ⟨words, hok, hlen, hword⟩

end Sys2Proof
end

section
/-! PROOFS. The executor: how a run ends in success and that an ended run takes no step
(40_executor.md R79, R80, R88). -/

namespace Sys2Proof

open Machine

/-! ## Ending a run changes only the run state (R88) -/

theorem onlyRun_halt (s : State) (cause : HaltCause) : OnlyRun s (s.halt cause) :=
  ⟨fun _ _ => rfl, rfl, fun _ => rfl, ⟨rfl, rfl⟩, rfl, rfl⟩

/-! ## The two ways to halt (R88) -/

/-- Only RET halts a running core, and only on the empty stack (R120). -/
theorem exec_halts {i : Instr} {s t : State} {cause : HaltCause} (hrun : s.run = .running)
    (hexec : exec i s = .next t) (hhalt : t.run = .halted cause) :
    i = .ret ∧ s.reg SP = s.spInit ∧ cause = .emptyStackReturn ∧ t = s.halt cause := by
  cases exec_effect hexec with
  | halted hsp =>
    cases hhalt
    exact ⟨rfl, hsp, rfl, rfl⟩
  | regFault f hu hf => simp at hhalt
  | memFault a ha => simp at hhalt
  | waits | plain | stored | emitted | taken => simp [hrun] at hhalt

/-- All that a step that halts can be: the end-of-program check (R80) or RET on the empty stack
(R120). -/
theorem step_halts {s t : State} {cause : HaltCause} (hstep : step s = .next t)
    (hhalt : t.run = .halted cause) :
    s.run = .running ∧ t = s.halt cause ∧
      ((cause = .endOfProgram ∧ s.atEnd = true) ∨
       (cause = .emptyStackReturn ∧ s.current = some .ret ∧ s.reg SP = s.spInit)) := by
  obtain ⟨hrun, ⟨hend, -, rfl⟩ | ⟨-, -, -, rfl⟩ | ⟨-, -, i, hcur, hexec⟩⟩ := step_cases hstep
  · cases hhalt
    exact ⟨hrun, rfl, .inl ⟨rfl, hend⟩⟩
  · simp at hhalt
  · obtain ⟨rfl, hsp, rfl, ht⟩ := exec_halts hrun hexec hhalt
    exact ⟨hrun, ht, .inr ⟨rfl, hcur, hsp⟩⟩

/-- A running core at an empty-stack RET halts (R120). -/
theorem step_emptyStackReturn {s : State} (hrun : s.run = .running) (hcur : s.current = some .ret)
    (hsp : s.reg SP = s.spInit) : step s = .next (s.halt .emptyStackReturn) := by
  rw [step_of_current hrun hcur, exec_ret_empty s hsp]

/-- Settles O20: `step_halts` gives the cause of a halting step, and each of the two causes halts. -/
theorem exactlyTwoWaysToHalt : Obligations.ExactlyTwoWaysToHalt := by
  intro s cause
  refine ⟨⟨?onlyThese, ?both⟩, ?frame⟩
  case onlyThese =>
    rintro ⟨t, hstep, hhalt⟩
    obtain ⟨hrun, -, hcause⟩ := step_halts hstep hhalt
    rw [atEnd_iff] at hcause
    exact ⟨hrun, hcause⟩
  case both =>
    rintro ⟨hrun, ⟨rfl, hpc⟩ | ⟨rfl, hcur, hsp⟩⟩
    · exact ⟨_, step_atEnd hrun ((atEnd_iff s).2 hpc), rfl⟩
    · exact ⟨_, step_emptyStackReturn hrun hcur hsp, rfl⟩
  case frame =>
    intro t hstep hhalt
    obtain ⟨-, rfl, -⟩ := step_halts hstep hhalt
    exact onlyRun_halt s cause

/-- Settles O15: at the sentinel the step is the halt, whose frame is `onlyRun_halt`. -/
theorem endOfProgramHalts : Obligations.EndOfProgramHalts := fun s hrun hpc =>
  ⟨_, step_atEnd hrun ((atEnd_iff s).2 hpc), rfl, onlyRun_halt s _⟩

/-! ## Ended runs (R79) -/

theorem stepEnabled_of_ended {s : State} (h : s.run ≠ .running) : s.stepEnabled = false := by
  simp [State.stepEnabled, h]

/-- Settles O17: a step to a next state starts in a running state. -/
theorem endedRunTakesNoStep : Obligations.EndedRunTakesNoStep := fun _ hended =>
  ⟨stepEnabled_of_ended hended, fun _ hstep => hended (step_cases hstep).1⟩

end Sys2Proof
end

section
/-! PROOFS. The branches: when each is taken, where it goes and what it leaves unchanged
(43_compare_branch.md R110 to R115). -/

namespace Sys2Proof

open Machine

/-! ## Words of an operation (R66, R83) -/

/-- Under an injective `OPCODE_OF`, a word with the opcode of an operation decodes to that operation
of its fields. -/
theorem decodesTo_instrOf (op : Op) : DecodesTo op (instrOf op) := fun _ _ hc hw =>
  decode_of_operation (hw ▸ operationOf_opcodeOf hc op)

/-! ## Both ends of a branch (R91) -/

theorem atTarget_setPc_target (s : State) (imm : BitVec 16) :
    AtTarget s (s.setPc (s.target imm)) imm :=
  target_eq s imm

theorem onlyRegs_setPc (s : State) (p : Word) : OnlyRegs [] s (s.setPc p) :=
  ⟨fun _ _ => rfl, fun _ => rfl, ⟨rfl, rfl⟩, ⟨rfl, rfl⟩, rfl⟩

theorem branchIf_taken {cond : Word → Bool} {s : State} (h : cond (s.reg F) = true)
    (imm : BitVec 16) : branchIf cond imm s = .next (s.setPc (s.target imm)) := by
  rw [branchIf, if_pos h]

theorem branchIf_notTaken {cond : Word → Bool} {s : State} (h : ¬ cond (s.reg F) = true)
    (imm : BitVec 16) : branchIf cond imm s = .next s.advance := by
  rw [branchIf, if_neg h]

/-- An instruction that runs as `branchIf cond` branches exactly when `cond` holds of F, however
the condition is written. -/
theorem branchesWhen_of_exec_branchIf {make : BitVec 16 → Instr} {cond : Word → Bool}
    {taken : Word → Prop} (hexec : ∀ imm s, exec (make imm) s = branchIf cond imm s)
    (hcond : ∀ f, cond f = true ↔ taken f) : BranchesWhen taken make := by
  intro s imm
  rw [hexec, ← hcond]
  by_cases h : cond (s.reg F) = true
  case pos =>
    exact ⟨_, branchIf_taken h imm, onlyRegs_setPc s _, fun _ => atTarget_setPc_target s imm,
      fun hnot => absurd h hnot⟩
  case neg =>
    exact ⟨_, branchIf_notTaken h imm, onlyRegs_setPc s _, fun htaken => absurd htaken h,
      fun _ => rfl⟩

/-! ## The conditions as bits of F (R22) -/

theorem condE_iff (f : Word) : condE f = true ↔ f.getLsbD 6 = true := Iff.rfl

theorem condL_iff (f : Word) : condL f = true ↔ f.getLsbD 7 ≠ f.getLsbD 11 := bne_iff_ne

theorem condLE_iff (f : Word) :
    condLE f = true ↔ f.getLsbD 7 ≠ f.getLsbD 11 ∨ f.getLsbD 6 = true :=
  Bool.or_eq_true_iff.trans (or_congr (condL_iff f) (condE_iff f))

/-- JGE is taken exactly where JL is not. -/
theorem condGE_eq_not_condL (f : Word) : condGE f = !condL f := rfl

theorem condGE_iff (f : Word) : condGE f = true ↔ f.getLsbD 7 = f.getLsbD 11 := by
  rw [condGE_eq_not_condL, Bool.not_eq_true', ← Bool.not_eq_true, condL_iff, not_not]

theorem condBE_iff (f : Word) :
    condBE f = true ↔ f.getLsbD 6 = true ∨ f.getLsbD 0 = true :=
  Bool.or_eq_true_iff

/-! ## The six branches -/

/-- Settles O47: JE is `branchIf condE`, the zero flag. -/
theorem jeTakenOnZero : Obligations.JeTakenOnZero :=
  ⟨decodesTo_instrOf .je, branchesWhen_of_exec_branchIf exec_je condE_iff⟩

/-- Settles O48: JL is `branchIf condL`, sign xor overflow. -/
theorem jlTakenOnSignXorOverflow : Obligations.JlTakenOnSignXorOverflow :=
  ⟨decodesTo_instrOf .jl, branchesWhen_of_exec_branchIf exec_jl condL_iff⟩

/-- Settles O49: JLE is `branchIf condLE`, the condition of JL or that of JE. -/
theorem jleTakenOnLessOrZero : Obligations.JleTakenOnLessOrZero :=
  ⟨decodesTo_instrOf .jle, branchesWhen_of_exec_branchIf exec_jle condLE_iff⟩

/-- Settles O50: JGE is `branchIf condGE`, the negation of the condition of JL. -/
theorem jgeTakenOnSignEqualsOverflow : Obligations.JgeTakenOnSignEqualsOverflow :=
  ⟨decodesTo_instrOf .jge, branchesWhen_of_exec_branchIf exec_jge condGE_iff⟩

/-- Settles O51: JBE is `branchIf condBE`, zero or carry. -/
theorem jbeTakenOnZeroOrCarry : Obligations.JbeTakenOnZeroOrCarry :=
  ⟨decodesTo_instrOf .jbe, branchesWhen_of_exec_branchIf exec_jbe condBE_iff⟩

/-- Settles O52: JMP is one write of the target to pc, in every state. -/
theorem jmpAlwaysTaken : Obligations.JmpAlwaysTaken :=
  ⟨decodesTo_instrOf .jmp, fun s imm =>
    ⟨_, exec_jmp imm s, atTarget_setPc_target s imm, onlyRegs_setPc s _⟩⟩

end Sys2Proof
end

section
/-! PROOFS. The no-op: a word of an unassigned opcode only advances pc (45_io_and_nop.md R131). -/

namespace Sys2Proof

open Machine

/-- An opcode value has no operation when `OPCODE_OF` maps none to it (R68, R83). -/
theorem operationOf_eq_none_of_forall_ne {c : Config} {opc : BitVec 5}
    (h : ∀ op, c.opcodeOf op ≠ opc) : c.operationOf opc = none :=
  List.find?_eq_none.2 fun op _ => by simpa using h op

theorem onlyRegs_advance (s : State) : OnlyRegs [] s s.advance := onlyRegs_setPc s _

/-- Settles O59: the word decodes to a NOP, whose meaning is the bare advance of pc. -/
theorem unassignedOpcodeIsNop : Obligations.UnassignedOpcodeIsNop := by
  intro c w hunassigned s
  have hdecode : decode c w = .nop (fieldsOf w).opc :=
    decode_of_unassigned (operationOf_eq_none_of_forall_ne hunassigned)
  exact ⟨s.advance, by rw [hdecode, exec_nop], advance_pc s, onlyRegs_advance s⟩

end Sys2Proof
end

section
/-! PROOFS. The decoder and the encoder: each is the other's inverse, every word names one
operation, and only used fields matter (30_encoding.md R65 to R73). -/

namespace Sys2Proof

/-! ## Decoding the encoded word (R73) -/

theorem fieldsOf_encode (c : Config) (i : Instr) : fieldsOf (encode c i) = fieldsOfInstr c i :=
  fieldsOf_packFields _

/-- The encoder writes the opcode of the instruction's operation. -/
theorem fieldsOfInstr_opc {i : Instr} {op : Op} (h : i.op = some op) (c : Config) :
    (fieldsOfInstr c i).opc = c.opcodeOf op := by
  cases i <;> cases h <;> rfl

/-- The encoder writes every field that the operation uses. -/
theorem instrOf_fieldsOfInstr {i : Instr} {op : Op} (h : i.op = some op) (c : Config) :
    instrOf op (fieldsOfInstr c i) = i := by
  cases i <;> cases h <;> rfl

/-- An instruction without an operation is a NOP (R68). -/
theorem eq_nop_of_op_eq_none {i : Instr} (h : i.op = none) : ∃ opc, i = .nop opc := by
  cases i with
  | nop opc => exact ⟨opc, rfl⟩
  | _ => cases h

/-- Settles O1: the encoded word has the opcode of the operation, or the unassigned opcode of the
NOP, and the fields that the decoder reads back. -/
theorem decodeOfEncodeIsIdentity : Obligations.DecodeOfEncodeIsIdentity := by
  intro c i hc hwf
  cases hop : i.op with
  | some op =>
    have hopc : c.operationOf (fieldsOf (encode c i)).opc = some op := by
      rw [fieldsOf_encode, fieldsOfInstr_opc hop, operationOf_opcodeOf hc]
    rw [decode_of_operation hopc, fieldsOf_encode, instrOf_fieldsOfInstr hop]
  | none =>
    obtain ⟨opc, rfl⟩ := eq_nop_of_op_eq_none hop
    have hopc : c.operationOf (fieldsOf (encode c (.nop opc))).opc = none := by
      rw [fieldsOf_encode]
      exact operationOf_none.2 hwf
    rw [decode_of_unassigned hopc, fieldsOf_encode]
    rfl

/-! ## Every word decodes (R65, R68) -/

/-- All that a word can decode to. -/
theorem decode_cases (c : Config) (w : Word) :
    (∃ op, c.operationOf (fieldsOf w).opc = some op ∧ decode c w = instrOf op (fieldsOf w)) ∨
    (c.operationOf (fieldsOf w).opc = none ∧ decode c w = .nop (fieldsOf w).opc) := by
  cases h : c.operationOf (fieldsOf w).opc with
  | some op => exact .inl ⟨op, rfl, decode_of_operation h⟩
  | none => exact .inr ⟨rfl, decode_of_unassigned h⟩

theorem decode_wellFormed (c : Config) (w : Word) : (decode c w).wellFormed c = true := by
  obtain ⟨op, -, hdec⟩ | ⟨hnone, hdec⟩ := decode_cases c w <;> rw [hdec]
  · exact instrOf_wellFormed c op _
  · exact operationOf_none.1 hnone

theorem opcodeOf_of_decode_op {c : Config} {w : Word} {op : Op} (h : (decode c w).op = some op) :
    c.opcodeOf op = (fieldsOf w).opc := by
  obtain ⟨op', hop, hdec⟩ | ⟨-, hdec⟩ := decode_cases c w <;> rw [hdec] at h
  · obtain rfl : op' = op := by simpa using h
    exact operationOf_some hop
  · cases h

theorem decode_op_of_opcodeOf {c : Config} {w : Word} {op : Op} (hc : c.opcodesOk)
    (h : c.opcodeOf op = (fieldsOf w).opc) : (decode c w).op = some op := by
  rw [decode_of_operation (h ▸ operationOf_opcodeOf hc op), instrOf_op]

/-- Settles O2: `decode_cases` for the first two clauses; the assigned and the unassigned opcode
values for the others. -/
theorem everyWordNamesOneOperation : Obligations.EveryWordNamesOneOperation := fun c w =>
  ⟨decode_wellFormed c w, fun _ h => opcodeOf_of_decode_op h,
    fun hc _ h => decode_op_of_opcodeOf hc h,
    fun h => decode_of_unassigned (operationOf_eq_none_of_forall_ne h)⟩

/-! ## Used fields (R67) -/

/-- The instruction depends on the fields that its operation uses. -/
theorem instrOf_congr {op : Op} {f g : Fields} (h1 : op.usesField.1 = true → f.r1 = g.r1)
    (h2 : op.usesField.2.1 = true → f.r2 = g.r2)
    (h3 : op.usesField.2.2 = true → f.imm16 = g.imm16) : instrOf op f = instrOf op g := by
  cases op with
  | subi | addi | movi | store => simp only [instrOf, h1 rfl, h3 rfl]
  | add | mul | mov | cmp => simp only [instrOf, h1 rfl, h2 rfl]
  | shr | push | pop | print | read => simp only [instrOf, h1 rfl]
  | load => simp only [instrOf, h2 rfl, h3 rfl]
  | je | jl | jle | jge | jbe | jmp | call => simp only [instrOf, h3 rfl]
  | ret => rfl

/-- Settles O4: words of one opcode have one operation, or none and then one NOP. -/
theorem unusedFieldsChangeNothing : Obligations.UnusedFieldsChangeNothing := by
  intro c w v hopc hused
  obtain ⟨op, hop, hdec⟩ | ⟨hnone, hdec⟩ := decode_cases c w
  · obtain ⟨h1, h2, h3⟩ := hused op hop
    rw [hdec, decode_of_operation (hopc ▸ hop)]
    exact instrOf_congr h1 h2 h3
  · rw [hdec, decode_of_unassigned (hopc ▸ hnone), hopc]

/-! ## The image of a program (R64) -/

theorem imageOf_cons (o : ByteOrder) (w : Word) (words : List Word) :
    imageOf o (w :: words) = bytesOfWord o w ++ imageOf o words := List.flatMap_cons

/-- Settles O7, by induction on the program: the first 4 bytes decode to the first word. -/
theorem imageOfAProgramDecodesToIt : Obligations.ImageOfAProgramDecodesToIt := by
  intro o words
  induction words with
  | nil => rfl
  | cons w words ih => rw [imageOf_cons, decodeImage_bytesOfWord_append, ih]

/-- Settles O6: each of the nine words is evaluated. -/
theorem writtenWordsDecode : Obligations.WrittenWordsDecode := by
  unfold Obligations.WrittenWordsDecode
  decide

end Sys2Proof
end

section
/-! PROOFS. Reset and boot (70_reset_and_hazards.md R39, R150). -/

namespace Sys2Proof

open Machine

/-! ## The reset state (R39) -/

theorem toNat_ofNat_stackSize {c : Config} (h : c.stackSizeOk) :
    (BitVec.ofNat 32 c.stackSize).toNat = c.stackSize := by
  obtain ⟨-, -, hle⟩ := h
  rw [BitVec.toNat_ofNat, Nat.mod_eq_of_lt (by omega)]

/-- Settles O9: SP is the one register that reset sets; a legal `STACK_SIZE` is below 2^32. -/
theorem resetValues : Obligations.ResetValues := by
  refine ⟨fun c prog hc => ⟨fun i hi => ?regs, ?sp, rfl, fun _ => rfl, rfl, rfl, rfl, rfl⟩, rfl⟩
  case regs => rw [resetFor_reg, if_neg hi]; rfl
  case sp => rw [resetFor_reg, if_pos rfl, toNat_ofNat_stackSize hc.1]

/-- Reset meets the invariant: memory is empty and the core runs. -/
theorem resetFor_inv {c : Config} {prog : List Word} (hc : c.wf)
    (hprog : prog.length ≤ maxProgramLength) : (State.resetFor c prog).Inv where
  cfg := hc
  prog := hprog
  mem := ⟨⟨List.Pairwise.nil, fun _ h => absurd h List.not_mem_nil⟩,
    fun _ h => absurd h List.not_mem_nil⟩
  run := trivial

/-- Settles O11: `resetFor_inv`, and the default parameters are legal. -/
theorem resetMeetsInvariant : Obligations.ResetMeetsInvariant :=
  ⟨fun _ _ hc hprog => resetFor_inv hc hprog, resetFor_inv (by decide) (Nat.zero_le _)⟩

/-! ## Boot (R132, R150) -/

/-- An image that decodes to a program of legal length boots it from reset. -/
theorem boot_of_decodeImage {c : Config} {image : List Byte} {words : List Word}
    (h : decodeImage c.byteOrder image = .ok words) (hne : words ≠ [])
    (hlen : words.length ≤ maxProgramLength) : boot c image = .ok (State.resetFor c words) := by
  obtain ⟨w, ws, rfl⟩ := List.exists_cons_of_ne_nil hne
  have hws : ws.length < maxProgramLength := by simpa [Nat.succ_le_iff] using hlen
  simp only [boot, loadImage, h, if_pos hws]

/-- Settles O10: an image of whole groups decodes to a quarter as many words. -/
theorem bootStartsInReset : Obligations.BootStartsInReset := by
  refine ⟨fun c image hmod hpos hle => ?loads, fun _ => rfl⟩
  obtain ⟨words, hok, hlen, -⟩ := decodeImage_of_whole_groups c.byteOrder hmod
  have hne : words ≠ [] := List.ne_nil_of_length_pos (by omega)
  have hmax : words.length ≤ maxProgramLength := by unfold maxProgramLength; omega
  exact ⟨words, hok, hne, boot_of_decodeImage hok hne hmax⟩

end Sys2Proof
end

section
/-! PROOFS. What every step keeps: the parameters and the program, the invariant, and the precision
of faults (40_executor.md, 60_exceptions.md R133 to R136). -/

namespace Sys2Proof

open Machine

/-! ## Parameters and program (R35, R41, R57) -/

theorem exec_keepsFixed {i : Instr} {s t : State} (h : exec i s = .next t) : KeepsFixed s t := by
  cases exec_effect h <;> exact ⟨rfl, rfl⟩

/-- Settles O22: the two checks of the step change only the run state, and `exec_keepsFixed`. -/
theorem programAndParametersAreFixed : Obligations.ProgramAndParametersAreFixed := by
  intro s t hstep
  obtain ⟨-, ⟨-, -, rfl⟩ | ⟨-, -, -, rfl⟩ | ⟨-, -, i, -, hexec⟩⟩ := step_cases hstep
  · exact ⟨rfl, rfl⟩
  · exact ⟨rfl, rfl⟩
  · exact exec_keepsFixed hexec

/-! ## The invariant -/

/-- A store in bounds keeps memory canonical and inside [0, STACK_SIZE). -/
theorem memOk_store32 {s t : State} {a : Int} {v : Word} (hm : s.memOk) (ha : s.inBounds a)
    (hcfg : t.cfg = s.cfg) (hmem : t.mem = s.mem.store32 a.toNat v) : t.memOk := by
  obtain ⟨hwf, hlt⟩ := hm
  refine ⟨hmem ▸ Memory.store32_wf hwf _ _, fun c hc => ?_⟩
  rw [hcfg]
  rw [hmem] at hc
  obtain ⟨-, hc4⟩ | hc := Memory.mem_store32 hc
  · obtain ⟨ha0, ha4⟩ := ha
    omega
  · exact hlt c hc

theorem exec_memOk {i : Instr} {s t : State} (hm : s.memOk) (h : exec i s = .next t) :
    t.memOk := by
  cases exec_effect h with
  | stored a _ hb v regs pc => exact memOk_store32 hm hb rfl rfl
  | regFault | memFault | halted | waits | plain | emitted | taken => exact hm

theorem runJustified_of_running {s : State} (h : s.run = .running) : s.runJustified := by
  rw [State.runJustified, h]
  trivial

/-- The recorded values of an instruction's fault or halt hold in the state reached. -/
theorem exec_runJustified {i : Instr} {s t : State} (hrun : s.run = .running)
    (h : exec i s = .next t) : t.runJustified := by
  cases exec_effect h with
  | regFault f _ hf => exact ⟨rfl, hf⟩
  | memFault a ha => exact ⟨rfl, ha⟩
  | halted hsp => exact hsp
  | waits | plain | stored | emitted | taken => exact runJustified_of_running hrun

theorem step_memOk {s t : State} (hm : s.memOk) (hstep : step s = .next t) : t.memOk := by
  obtain ⟨-, ⟨-, -, rfl⟩ | ⟨-, -, -, rfl⟩ | ⟨-, -, i, -, hexec⟩⟩ := step_cases hstep
  · exact hm
  · exact hm
  · exact exec_memOk hm hexec

theorem step_runJustified {s t : State} (hstep : step s = .next t) : t.runJustified := by
  obtain ⟨hrun, ⟨hend, -, rfl⟩ | ⟨-, hfetch, -, rfl⟩ | ⟨-, -, i, -, hexec⟩⟩ := step_cases hstep
  · exact (atEnd_iff s).1 hend
  · exact ⟨rfl, hfetch⟩
  · exact exec_runJustified hrun hexec

/-- Settles O12: parameters and program are fixed, `step_memOk` and `step_runJustified`. -/
theorem stepKeepsInvariant : Obligations.StepKeepsInvariant := by
  intro s t hinv hstep
  obtain ⟨hcfg, hprog⟩ := programAndParametersAreFixed s t hstep
  exact ⟨hcfg ▸ hinv.cfg, hprog ▸ hinv.prog, step_memOk hinv.mem hstep, step_runJustified hstep⟩

/-! ## Faults (R133 to R136) -/

theorem onlyRun_takeFault (s : State) (f : CoreFault) : OnlyRun s (s.takeFault f) :=
  ⟨fun _ _ => rfl, rfl, fun _ => rfl, ⟨rfl, rfl⟩, rfl, rfl⟩

/-- All that a faulting instruction of a running core can be (R133, R134). -/
theorem exec_faults {i : Instr} {s t : State} {f : CoreFault} (hrun : s.run = .running)
    (hexec : exec i s = .next t) (hfault : t.run = .faulted f) :
    t = s.takeFault f ∧
      ((∃ r ∈ i.usedRegs, 16 < r.toNat ∧ f = .registerFault s.pc r) ∨
       (∃ a, ¬ s.inBounds a ∧ f = .memoryFault s.pc a)) := by
  cases exec_effect hexec with
  | regFault r hu hr =>
    cases hfault
    exact ⟨rfl, .inl ⟨r, hu, hr, rfl⟩⟩
  | memFault a ha =>
    cases hfault
    exact ⟨rfl, .inr ⟨a, ha, rfl⟩⟩
  | halted hsp => simp at hfault
  | waits | plain | stored | emitted | taken => simp [hrun] at hfault

/-- Settles O19: the fetch check faults on a bad pc, and `exec_faults` for the instructions. -/
theorem faultsArePrecise : Obligations.FaultsArePrecise := by
  intro s t f hstep hfault
  obtain ⟨hrun, ⟨-, -, rfl⟩ | ⟨-, hfetch, -, rfl⟩ | ⟨-, -, i, hcur, hexec⟩⟩ := step_cases hstep
  · simp at hfault
  · cases hfault
    exact ⟨onlyRun_takeFault s _, rfl, (fetchable_false_iff s).1 hfetch⟩
  · obtain ⟨rfl, ⟨r, hu, hr, rfl⟩ | ⟨a, ha, rfl⟩⟩ := exec_faults hrun hexec hfault
    · exact ⟨onlyRun_takeFault s _, rfl, hr, i, hcur, hu⟩
    · refine ⟨onlyRun_takeFault s _, rfl, ?_⟩
      show a < 0 ∨ _
      unfold State.inBounds at ha
      omega

/-- Settles O16: such a pc is not the sentinel and fails the fetch check. -/
theorem badPcFaultsAtFetch : Obligations.BadPcFaultsAtFetch := by
  intro s hrun hbad
  have hend : s.atEnd = false := (atEnd_false_iff s).2 (by omega)
  exact ⟨_, step_fetchFault hrun hend ((fetchable_false_iff s).2 hbad), rfl,
    onlyRun_takeFault s _⟩

/-- Settles O21: only the fetch fault begins at another pc. -/
theorem unfaultedStepHadNormalPc : Obligations.UnfaultedStepHadNormalPc := by
  intro s t hstep hsafe
  obtain ⟨-, ⟨hend, -, -⟩ | ⟨-, -, -, rfl⟩ | ⟨-, hfetch, -⟩⟩ := step_cases hstep
  · rw [atEnd_iff] at hend
    omega
  · cases hsafe
  · exact (fetchable_iff s).1 hfetch

/-! ## Running goes on (R32, R79) -/

theorem running_step_next {s : State} (hrun : s.run = .running) : ∃ t, step s = .next t := by
  cases hend : s.atEnd
  · obtain ⟨hf, -⟩ | ⟨-, w, -, hw⟩ := fetch_cases s hend
    · exact ⟨_, step_fetchFault hrun hend hf⟩
    · obtain ⟨t, ht, -⟩ := exec_answers (decode s.cfg w) s
      exact ⟨t, (step_exec hrun hend hw).trans ht⟩
  · exact ⟨_, step_atEnd hrun hend⟩

/-- A waiting core stands at a READ of an existing register and has no input value (R130). -/
theorem current_of_waiting {s : State} (h : s.waiting = true) :
    ∃ a, s.current = some (.read (regField a)) ∧ s.input = [] := by
  unfold State.waiting at h
  split at h
  next r hcur =>
    obtain ⟨hr, hin⟩ := Bool.and_eq_true_iff.1 h
    obtain ⟨a, rfl⟩ := fieldNamesRegister_iff.1 hr
    exact ⟨a, hcur, List.isEmpty_iff.1 hin⟩
  next => cases h

/-- Settles O18: every case of the step answers, and a READ that waits answers the same state. -/
theorem runningCoreGoesOn : Obligations.RunningCoreGoesOn := by
  intro s hrun
  refine ⟨running_step_next hrun, fun hdis => ?_⟩
  have hwait : s.waiting = true := by simpa [State.stepEnabled, hrun] using hdis
  obtain ⟨a, hcur, hin⟩ := current_of_waiting hwait
  rw [step_of_current hrun hcur, exec_read_waits a s hin]

/-! ## The word at pc (R83) -/

/-- Settles O13: such a pc passes both checks, so the fetch reads the program there. -/
theorem stepRunsDecodedInstruction : Obligations.StepRunsDecodedInstruction := by
  intro s hrun hmod hlt
  have hend : s.atEnd = false := (atEnd_false_iff s).2 (by omega)
  obtain ⟨w, hw, hfetch⟩ := fetch_of_fetchable s ((fetchable_iff s).2 (by omega)) hend
  exact ⟨w, hw, current_of_fetch hend hfetch, step_exec hrun hend hfetch⟩

/-- pc of a placed word is rounded down, without wrap-around. -/
theorem placeWord_pc_toNat (s : State) (w : Word) :
    (s.placeWord w).pc.toNat = 4 * (s.pc.toNat / 4) := by
  have := s.pc.isLt
  rw [State.placeWord, BitVec.toNat_ofNat]
  omega

/-- The words before the placed one: those of the program, filled up to the place. -/
theorem length_take_append_padding (l : List Word) (k : Nat) :
    (l.take k ++ List.replicate (k - l.length) paddingWord).length = k := by
  simp only [List.length_append, List.length_take, List.length_replicate]
  omega

theorem placeWord_getElem?_pc (s : State) (w : Word) :
    (s.placeWord w).prog[s.pc.toNat / 4]? = some w := by
  rw [State.placeWord, List.getElem?_append_right (length_take_append_padding _ _).le,
    length_take_append_padding, Nat.sub_self, List.getElem?_cons_zero]

theorem placeWord_getElem?_ne (s : State) (w : Word) {k : Nat} (hk : k < s.prog.length)
    (hne : k ≠ s.pc.toNat / 4) : (s.placeWord w).prog[k]? = s.prog[k]? := by
  have hlen := length_take_append_padding s.prog (s.pc.toNat / 4)
  obtain hlt | hgt := Nat.lt_or_gt_of_ne hne
  · rw [State.placeWord, List.getElem?_append_left (by omega),
      List.getElem?_append_left (by rw [List.length_take]; omega), List.getElem?_take_of_lt hlt]
  · obtain ⟨d, rfl⟩ := Nat.exists_eq_add_of_lt hgt
    rw [State.placeWord, List.getElem?_append_right (by omega), hlen,
      show s.pc.toNat / 4 + d + 1 - s.pc.toNat / 4 = d + 1 by omega, List.getElem?_cons_succ,
      List.getElem?_drop]
    congr 1
    omega

/-- The step after placing a word runs it: its place is a fetchable pc below the sentinel. -/
theorem step_placeWord (s : State) (w : Word) :
    step (s.placeWord w) = exec (decode s.cfg w) (s.placeWord w) := by
  have hpc := placeWord_pc_toNat s w
  have hget := placeWord_getElem?_pc s w
  have hlt : s.pc.toNat / 4 < (s.placeWord w).prog.length := (List.getElem?_eq_some_iff.1 hget).1
  obtain ⟨v, hv, -, hstep⟩ := stepRunsDecodedInstruction (s.placeWord w) rfl (by omega) (by omega)
  rw [hpc, Nat.mul_div_cancel_left _ (by omega), hget] at hv
  cases hv
  exact hstep

/-- Settles O14: `withFetchWord` is `placeWord` of the word's low bits. -/
theorem placedWordRunsNext : Obligations.PlacedWordRunsNext := by
  intro s nbits w
  refine ⟨step_placeWord s _, fun _ _ => rfl, fun _ => rfl, ⟨rfl, rfl⟩, rfl, fun hmod => ?pc,
    fun k hk hne => placeWord_getElem?_ne s _ hk hne⟩
  apply BitVec.eq_of_toNat_eq
  rw [State.withFetchWord, placeWord_pc_toNat]
  omega

end Sys2Proof
end

section
/-! PROOFS. The ports: what a step does to the output stream and the input queue, and that only READ
depends on the queue (40_executor.md R94, 45_io_and_nop.md R127, R130). -/

namespace Sys2Proof

open Machine

/-! ## The output stream (R127, R128) -/

theorem exec_output {i : Instr} {s t : State} (h : exec i s = .next t) :
    (∃ a, i = .print (regField a) ∧ t.output = s.output ++ [s.reg a]) ∨
    ((∀ a, i ≠ .print (regField a)) ∧ t.output = s.output) := by
  by_cases hp : ∃ a, i = .print (regField a)
  · obtain ⟨a, rfl⟩ := hp
    rw [exec_print_ok] at h
    cases h
    exact .inl ⟨a, rfl, rfl⟩
  · have hnot : ∀ a, i ≠ .print (regField a) := not_exists.1 hp
    refine .inr ⟨hnot, ?_⟩
    cases exec_effect h with
    | emitted a => exact absurd rfl (hnot a)
    | regFault | memFault | halted | waits | plain | stored | taken => rfl

/-- Settles O23: the two checks of the step emit nothing, and `exec_output`. -/
theorem eventsAreOnlyAppended : Obligations.EventsAreOnlyAppended := by
  refine ⟨rfl, fun s t hstep => ?_⟩
  obtain ⟨-, ⟨-, hcur, rfl⟩ | ⟨-, -, hcur, rfl⟩ | ⟨-, -, i, hcur, hexec⟩⟩ := step_cases hstep <;>
    simp only [hcur, Option.some.injEq, ne_eq]
  · exact .inr ⟨nofun, rfl⟩
  · exact .inr ⟨nofun, rfl⟩
  · exact exec_output hexec

/-! ## The input queue (R130) -/

theorem exec_input {i : Instr} {s t : State} (h : exec i s = .next t) :
    t.input = s.input ∨
    ∃ a v, i = .read (regField a) ∧ s.input = v :: t.input ∧ t.reg a = v := by
  cases exec_effect h with
  | taken a v rest hin => exact .inr ⟨a, v, rfl, hin, by simp⟩
  | regFault | memFault | halted | waits | plain | stored | emitted => exact .inl rfl

/-- Settles O24: the two checks of the step take nothing, and `exec_input`. -/
theorem onlyReadConsumesInput : Obligations.OnlyReadConsumesInput := by
  intro s t hstep
  obtain ⟨-, ⟨-, -, rfl⟩ | ⟨-, -, -, rfl⟩ | ⟨-, -, i, hcur, hexec⟩⟩ := step_cases hstep
  · exact .inl rfl
  · exact .inl rfl
  · obtain hsame | ⟨a, v, rfl, htaken⟩ := exec_input hexec
    · exact .inl hsame
    · exact .inr ⟨a, v, hcur, htaken⟩

/-! ## Independence of the input queue (R94) -/

/-- The same answer with another input queue in the next state. -/
def replaceInput (q : List Word) : Result → Result
  | .next t => .next { t with input := q }
  | .fault r => .fault r
  | .refused r => .refused r

theorem withReg_replaceInput {s : State} {q : List Word} {f : RegField} {k k' : RegIx → Result}
    (h : ∀ a, k' a = replaceInput q (k a)) :
    State.withReg { s with input := q } f k' = replaceInput q (s.withReg f k) := by
  unfold State.withReg
  split
  · exact h _
  · rfl

theorem withLoad_replaceInput {s : State} {q : List Word} {a : Int} {k k' : Word → Result}
    (h : ∀ v, k' v = replaceInput q (k v)) :
    State.withLoad { s with input := q } a k' = replaceInput q (s.withLoad a k) := by
  by_cases ha : s.inBounds a
  · have hq : State.inBounds { s with input := q } a := ha
    rw [withLoad_ok s ha, withLoad_ok _ hq, h]
  · have hq : ¬ State.inBounds { s with input := q } a := ha
    rw [withLoad_fault s ha, withLoad_fault _ hq]
    rfl

theorem withStore_replaceInput {s : State} {q : List Word} {a : Int} {v : Word}
    {k k' : State → Result} (h : ∀ t, k' { t with input := q } = replaceInput q (k t)) :
    State.withStore { s with input := q } a v k' = replaceInput q (s.withStore a v k) := by
  by_cases ha : s.inBounds a
  · have hq : State.inBounds { s with input := q } a := ha
    rw [withStore_ok s ha, withStore_ok _ hq, ← h]
  · have hq : ¬ State.inBounds { s with input := q } a := ha
    rw [withStore_fault s ha, withStore_fault _ hq]
    rfl

theorem branchIf_replaceInput (cond : Word → Bool) (imm : BitVec 16) (s : State) (q : List Word) :
    branchIf cond imm { s with input := q } = replaceInput q (branchIf cond imm s) := by
  unfold branchIf
  rw [withInputs_reg]
  split <;> rfl

theorem execRet_replaceInput (s : State) (q : List Word) :
    exec .ret { s with input := q } = replaceInput q (exec .ret s) := by
  by_cases h : s.reg SP = s.spInit
  · have hq : State.reg { s with input := q } SP = State.spInit { s with input := q } := h
    rw [exec_ret_empty s h, exec_ret_empty _ hq]
    rfl
  · have hq : State.reg { s with input := q } SP ≠ State.spInit { s with input := q } := h
    rw [exec_ret_pop s h, exec_ret_pop _ hq]
    exact withLoad_replaceInput fun _ => rfl

/-- Every instruction but READ answers alike whatever the input queue. -/
theorem exec_replaceInput {i : Instr} (hread : ∀ r, i ≠ .read r) (s : State) (q : List Word) :
    exec i { s with input := q } = replaceInput q (exec i s) := by
  cases i with
  | read r => exact absurd rfl (hread r)
  | subi | addi | shr | movi | print =>
    simp only [exec_subi, exec_addi, exec_shr, exec_movi, exec_print]
    exact withReg_replaceInput fun _ => rfl
  | add | mul | mov | cmp =>
    simp only [exec_add, exec_mul, exec_mov, exec_cmp]
    exact withReg_replaceInput fun _ => withReg_replaceInput fun _ => rfl
  | load | pop =>
    simp only [exec_load, exec_pop]
    exact withReg_replaceInput fun _ => withLoad_replaceInput fun _ => rfl
  | store | push =>
    simp only [exec_store, exec_push]
    exact withReg_replaceInput fun _ => withStore_replaceInput fun _ => rfl
  | call =>
    simp only [exec_call]
    exact withStore_replaceInput fun _ => rfl
  | ret => exact execRet_replaceInput s q
  | je | jl | jle | jge | jbe => exact branchIf_replaceInput _ _ s q
  | jmp | nop => rfl

/-- Settles O25: the checks of the step do not look at the queue, and `exec_replaceInput`. -/
theorem onlyReadDependsOnInput : Obligations.OnlyReadDependsOnInput := by
  intro s t q hread hstep
  obtain ⟨hrun, ⟨hend, -, rfl⟩ | ⟨hend, hfetch, -, rfl⟩ | ⟨-, -, i, hcur, hexec⟩⟩ :=
    step_cases hstep
  · exact step_atEnd (s := { s with input := q }) hrun hend
  · exact step_fetchFault (s := { s with input := q }) hrun hend hfetch
  · have hi : ∀ r, i ≠ .read r := fun r hr => hread r (hr ▸ hcur)
    rw [step_of_current (s := { s with input := q }) hrun hcur, exec_replaceInput hi, hexec]
    rfl

end Sys2Proof
end

section
/-! PROOFS. The register-field check and the bounds check of every instruction
(40_executor.md R84, 20_memory.md R44, R45, R49). -/

namespace Sys2Proof

open Machine

theorem faultsWith_of_exec {i : Instr} {s : State} {f : CoreFault}
    (h : exec i s = .next (s.takeFault f)) : FaultsWith i s f :=
  ⟨_, h, rfl, onlyRun_takeFault s f⟩

/-! ## Register fields (R84, R133) -/

/-- The field check of R84 on a list of used fields: it finds the first that names no register. -/
def firstBadField (fields : List RegField) : Option RegField := fields.find? fun r => 16 < r.toNat

theorem firstBadField_of_bad {r : RegField} (h : 16 < r.toNat) (rest : List RegField) :
    firstBadField (r :: rest) = some r :=
  List.find?_cons_of_pos (by simpa using h)

theorem firstBadField_of_good {r : RegField} (h : r.toNat ≤ 16) (rest : List RegField) :
    firstBadField (r :: rest) = firstBadField rest :=
  List.find?_cons_of_neg (by simpa using h)

theorem withReg_firstBad {s : State} {r f : RegField} {k : RegIx → Result}
    (h : firstBadField [r] = some f) :
    s.withReg r k = .next (s.takeFault (.registerFault s.pc f)) := by
  by_cases hr : 16 < r.toNat
  · cases (firstBadField_of_bad hr []).symm.trans h
    exact withReg_fault s hr k
  · rw [firstBadField_of_good (by omega)] at h
    cases h

theorem withReg_withReg_firstBad {s : State} {r1 r2 f : RegField} {k : RegIx → RegIx → Result}
    (h : firstBadField [r1, r2] = some f) :
    (s.withReg r1 fun a => s.withReg r2 (k a)) =
      .next (s.takeFault (.registerFault s.pc f)) := by
  obtain ⟨a, rfl, e⟩ | ⟨hr, e⟩ := withReg_cases s r1 fun a => s.withReg r2 (k a) <;> rw [e]
  · rw [firstBadField_of_good (by rw [regField_toNat]; omega)] at h
    exact withReg_firstBad h
  · cases (firstBadField_of_bad hr [r2]).symm.trans h
    rfl

/-- Every instruction checks its used fields before anything else, in order (R84). -/
theorem exec_of_firstBadField {i : Instr} {s : State} {f : RegField}
    (h : firstBadField i.usedRegs = some f) :
    exec i s = .next (s.takeFault (.registerFault s.pc f)) := by
  cases i with
  | subi | addi | shr | load | store | movi | push | pop | print | read =>
    simp only [exec_subi, exec_addi, exec_shr, exec_load, exec_store, exec_movi, exec_push,
      exec_pop, exec_print, exec_read]
    exact withReg_firstBad h
  | add | mul | mov | cmp =>
    simp only [exec_add, exec_mul, exec_mov, exec_cmp]
    exact withReg_withReg_firstBad h
  | je | jl | jle | jge | jbe | jmp | call | ret | nop => cases h

/-- Without such a field an instruction raises no RegisterFault: one recorded after it was recorded
before. -/
theorem run_eq_of_registerFault {i : Instr} {s t : State} {pc : Word} {f : RegField}
    (hgood : firstBadField i.usedRegs = none) (hexec : exec i s = .next t)
    (hfault : t.run = .faulted (.registerFault pc f)) : s.run = t.run := by
  cases exec_effect hexec with
  | regFault r hu hr => exact absurd hr (by simpa using List.find?_eq_none.1 hgood r hu)
  | memFault a ha => simp at hfault
  | halted hsp => simp at hfault
  | waits | plain | stored | emitted | taken => rfl

/-- Settles O29: the field check of every instruction, and what its effects record. -/
theorem registerFieldCheck : Obligations.RegisterFieldCheck :=
  ⟨fun _ _ _ h => faultsWith_of_exec (exec_of_firstBadField h),
    fun _ _ _ _ _ => run_eq_of_registerFault⟩

theorem checksField_of_usedRegs {make : RegField → Instr} (h : ∀ r, (make r).usedRegs = [r]) :
    ChecksField make := fun _ r hr =>
  faultsWith_of_exec (exec_of_firstBadField (h r ▸ firstBadField_of_bad hr []))

theorem checksFields_of_usedRegs {make : RegField → RegField → Instr}
    (h : ∀ r1 r2, (make r1 r2).usedRegs = [r1, r2]) : ChecksFields make := by
  refine ⟨fun s r1 r2 h1 => ?first, fun s r1 r2 h1 h2 => ?second⟩ <;>
    refine faultsWith_of_exec (exec_of_firstBadField ?_) <;> rw [h]
  case first => exact firstBadField_of_bad h1 [r2]
  case second => rw [firstBadField_of_good h1, firstBadField_of_bad h2]

/-! ## Bounds (R44, R45, R134) -/

/-- Settles O30: each of the six accesses is a `withLoad` or a `withStore` at its address. -/
theorem accessOutOfBoundsFaults : Obligations.AccessOutOfBoundsFaults := by
  intro s a imm
  refine ⟨fun h => ⟨?load, ?store⟩, fun h => ⟨?push, ?call⟩, fun h => ⟨?pop, fun hsp => ?ret⟩⟩ <;>
    apply faultsWith_of_exec
  case load => rw [exec_load, withReg_regField, withLoad_fault s h]
  case store => rw [exec_store, withReg_regField, withStore_fault s h]
  case push => rw [exec_push, withReg_regField, withStore_fault s h]
  case call => rw [exec_call, withStore_fault s h]
  case pop => rw [exec_pop, withReg_regField, withLoad_fault s h]
  case ret => rw [exec_ret_pop s hsp, withLoad_fault s h]

/-! ## The wrapped address (R49) -/

theorem ofInt_sub {w : Nat} (x y : Int) :
    BitVec.ofInt w (x - y) = BitVec.ofInt w x - BitVec.ofInt w y := by
  apply BitVec.eq_of_toInt_eq
  simp [BitVec.toInt_sub]

/-- The 32-bit address is the exact one modulo 2^32. -/
theorem wrapped_slotAddr (s : State) (imm : BitVec 16) :
    s.reg SP - 4 * sextImm imm = BitVec.ofInt 32 (s.slotAddr imm) := by
  rw [State.slotAddr, ofInt_sub, BitVec.ofInt_mul, BitVec.ofInt_toInt, BitVec.ofInt_toInt]
  rfl

/-- The exact address is near the 32-bit range: the immediate has 16 bits. -/
theorem slotAddr_range (s : State) (imm : BitVec 16) :
    -2 ^ 31 - 2 ^ 18 < s.slotAddr imm ∧ s.slotAddr imm < 2 ^ 31 + 2 ^ 18 := by
  have hsp := BitVec.toInt_lt (x := s.reg SP)
  have hsp' := BitVec.le_toInt (x := s.reg SP)
  have himm := BitVec.toInt_lt (x := imm)
  have himm' := BitVec.le_toInt (x := imm)
  rw [State.slotAddr, sextImm_toInt]
  omega

/-- The signed reading of an integer modulo 2^32 differs from it by a multiple of 2^32. -/
theorem toInt_ofInt_cases (a : Int) : ∃ k : Int, (BitVec.ofInt 32 a).toInt = a - 2 ^ 32 * k :=
  ⟨_, BitVec.toInt_ofInt a ▸ Int.bmod_eq_self_sub_mul_bdiv a (2 ^ 32)⟩

/-- Settles O31: where either address is in bounds it is below 2^30, and the two cannot differ by
a multiple of 2^32. -/
theorem wrappedAddressAgrees : Obligations.WrappedAddressAgrees := by
  intro s imm hsize
  obtain ⟨-, -, hle⟩ := hsize
  obtain ⟨hlo, hhi⟩ := slotAddr_range s imm
  obtain ⟨k, hk⟩ := toInt_ofInt_cases (s.slotAddr imm)
  have hw := BitVec.toInt_lt (x := BitVec.ofInt 32 (s.slotAddr imm))
  have hw' := BitVec.le_toInt (x := BitVec.ofInt 32 (s.slotAddr imm))
  rw [wrapped_slotAddr]
  unfold State.inBounds
  omega

end Sys2Proof
end

section
/-! PROOFS. What an instruction may write: registers and memory, and over a step SP and F
(10_state.md R18, R19, R24; 44_call_stack.md R123). -/

namespace Sys2Proof

open Machine

/-! ## Registers left unchanged -/

/-- Every next state of `r` has register `j` as in `s`. -/
def KeepsReg (j : RegIx) (s : State) (r : Result) : Prop := ∀ t, r = .next t → t.reg j = s.reg j

theorem keepsReg_next {j : RegIx} {s t : State} (h : t.reg j = s.reg j) :
    KeepsReg j s (.next t) := by
  rintro _ ⟨⟩
  exact h

theorem keepsReg_setReg {j a : RegIx} (s : State) (v : Word) (h : j ≠ a) :
    KeepsReg j s (.next (s.setReg a v).advance) :=
  keepsReg_next (reg_setReg_ne s a v h)

theorem keepsReg_withReg {j : RegIx} {s : State} {f : RegField} {k : RegIx → Result}
    (h : ∀ a, f = regField a → KeepsReg j s (k a)) : KeepsReg j s (s.withReg f k) := by
  intro t ht
  obtain ⟨a, ha, hk⟩ | ⟨-, rfl⟩ := withReg_next ht
  · exact h a ha t hk
  · rfl

theorem keepsReg_withLoad {j : RegIx} {s : State} {a : Int} {k : Word → Result}
    (h : ∀ v, KeepsReg j s (k v)) : KeepsReg j s (s.withLoad a k) := by
  intro t ht
  obtain ⟨-, hk⟩ | ⟨-, rfl⟩ := withLoad_next ht
  · exact h _ t hk
  · rfl

theorem keepsReg_withStore {j : RegIx} {s : State} {a : Int} {v : Word} {k : State → Result}
    (h : ∀ m, KeepsReg j s (k { s with mem := m })) : KeepsReg j s (s.withStore a v k) := by
  intro t ht
  obtain ⟨-, hk⟩ | ⟨-, rfl⟩ := withStore_next ht
  · exact h _ t hk
  · rfl

theorem keepsReg_branchIf (j : RegIx) (cond : Word → Bool) (imm : BitVec 16) (s : State) :
    KeepsReg j s (branchIf cond imm s) := by
  apply keepsReg_next
  split <;> rfl

theorem keepsReg_popInto {j a : RegIx} (s : State) (v : Word) (hsp : j ≠ SP) (h : j ≠ a) :
    KeepsReg j s (.next (s.popInto a v).advance) :=
  keepsReg_next (by rw [advance_reg, popInto_reg, if_neg hsp, if_neg h])

/-- A field that names `a` and is not the one of `j` names another register. -/
theorem ne_of_field_ne {j a : RegIx} {f : RegField} (hf : f = regField a)
    (h : some f ≠ some (regField j)) : j ≠ a := by
  rintro rfl
  exact h (congrArg some hf)

/-- An instruction changes no register but its destination and the implicit ones (R18, R19). -/
theorem exec_keepsReg {i : Instr} {j : RegIx} (s : State)
    (hdest : i.destination ≠ some (regField j)) (himpl : j ∉ implicitWrites i) :
    KeepsReg j s (exec i s) := by
  cases i with
  | subi | addi | shr | movi =>
    simp only [exec_subi, exec_addi, exec_shr, exec_movi]
    exact keepsReg_withReg fun a ha => keepsReg_setReg s _ (ne_of_field_ne ha hdest)
  | add | mul | mov =>
    simp only [exec_add, exec_mul, exec_mov]
    exact keepsReg_withReg fun a _ => keepsReg_withReg fun b hb =>
      keepsReg_setReg s _ (ne_of_field_ne hb hdest)
  | load =>
    rw [exec_load]
    exact keepsReg_withReg fun a ha => keepsReg_withLoad fun v =>
      keepsReg_setReg s _ (ne_of_field_ne ha hdest)
  | store =>
    rw [exec_store]
    exact keepsReg_withReg fun a _ => keepsReg_withStore fun m => keepsReg_next rfl
  | cmp =>
    rw [exec_cmp]
    exact keepsReg_withReg fun a _ => keepsReg_withReg fun b _ =>
      keepsReg_setReg s _ (List.ne_of_not_mem_cons himpl)
  | je | jl | jle | jge | jbe => exact keepsReg_branchIf j _ _ s
  | jmp | nop => exact keepsReg_next rfl
  | call =>
    rw [exec_call]
    exact keepsReg_withStore fun m => keepsReg_next
      (reg_setReg_ne _ SP _ (List.ne_of_not_mem_cons himpl))
  | ret =>
    by_cases hsp : s.reg SP = s.spInit
    · rw [exec_ret_empty s hsp]
      exact keepsReg_next rfl
    · rw [exec_ret_pop s hsp]
      exact keepsReg_withLoad fun v => keepsReg_next
        (reg_setReg_ne s SP _ (List.ne_of_not_mem_cons himpl))
  | push =>
    rw [exec_push]
    exact keepsReg_withReg fun a _ => keepsReg_withStore fun m => keepsReg_next
      (reg_setReg_ne _ SP _ (List.ne_of_not_mem_cons himpl))
  | pop =>
    rw [exec_pop]
    exact keepsReg_withReg fun a ha => keepsReg_withLoad fun v =>
      keepsReg_popInto s v (List.ne_of_not_mem_cons himpl) (ne_of_field_ne ha hdest)
  | print =>
    rw [exec_print]
    exact keepsReg_withReg fun a _ => keepsReg_next rfl
  | read =>
    rw [exec_read]
    refine keepsReg_withReg fun a ha t ht => ?_
    obtain ⟨v, rest, -, hk⟩ | ⟨-, rfl⟩ := withInput_next ht
    · cases hk
      exact reg_setReg_ne _ a v (ne_of_field_ne ha hdest)
    · rfl

/-! ## Memory left unchanged -/

theorem exec_keepsMem {i : Instr} {s t : State} (hnone : s.storeAddr i = none)
    (h : exec i s = .next t) : KeepsMem s t := by
  cases exec_effect h with
  | stored a ha => cases hnone.symm.trans ha
  | regFault | memFault | halted | waits | plain | emitted | taken => exact fun _ => rfl

/-- A store at an address in bounds leaves the bytes outside the word unchanged (R45). -/
theorem keepsMemOutside_of_store32 {s t : State} {a : Int} {v : Word} (hwf : s.mem.wf)
    (ha : s.inBounds a) (hmem : t.mem = s.mem.store32 a.toNat v) : KeepsMemOutside a s t := by
  intro n hn
  obtain ⟨ha0, -⟩ := ha
  rw [hmem, Memory.read_store32_outside hwf _ _ (by omega)]

theorem exec_keepsMemOutside {i : Instr} {s t : State} {a : Int} (hwf : s.mem.wf)
    (hsome : s.storeAddr i = some a) (h : exec i s = .next t) : KeepsMemOutside a s t := by
  cases exec_effect h with
  | stored b hb hin =>
    cases hsome.symm.trans hb
    exact keepsMemOutside_of_store32 hwf hin rfl
  | regFault | memFault | halted | waits | plain | emitted | taken => exact fun _ _ => rfl

/-- Settles O26: `exec_keepsReg` for the registers, the one store of an instruction for memory. -/
theorem instructionsWriteOnlyTheirOwn : Obligations.InstructionsWriteOnlyTheirOwn :=
  fun _ s t hwf hexec =>
    ⟨fun _ hdest himpl => exec_keepsReg s hdest himpl t hexec,
      fun hnone => exec_keepsMem hnone hexec,
      fun _ hsome => exec_keepsMemOutside hwf hsome hexec⟩

/-! ## The stack pointer over a step (R123) -/

theorem sp_ne_flags : SP ≠ F := by decide

/-- What an instruction does to SP, where it does not name it as its destination: nothing, a
decrement to an address in bounds, or an increment from one. -/
def MovesSp (s t : State) : Prop :=
  t.reg SP = s.reg SP ∨ (s.inBounds s.pushAddr ∧ t.reg SP = s.pushedSp) ∨
    (s.inBounds s.topAddr ∧ t.reg SP = s.reg SP + 4)

theorem movesSp_of_withStore {s t : State} {v : Word} {k : State → Result}
    (h : s.withStore s.pushAddr v k = .next t)
    (hsp : ∀ m, k { s with mem := m } = .next t → t.reg SP = s.pushedSp) : MovesSp s t := by
  obtain ⟨hb, hk⟩ | ⟨-, rfl⟩ := withStore_next h
  · exact .inr (.inl ⟨hb, hsp _ hk⟩)
  · exact .inl rfl

theorem movesSp_of_withLoad {s t : State} {k : Word → Result}
    (h : s.withLoad s.topAddr k = .next t)
    (hsp : ∀ v, k v = .next t → t.reg SP = s.reg SP + 4) : MovesSp s t := by
  obtain ⟨hb, hk⟩ | ⟨-, rfl⟩ := withLoad_next h
  · exact .inr (.inr ⟨hb, hsp _ hk⟩)
  · exact .inl rfl

theorem popInto_reg_sp {s : State} {a : RegIx} (h : SP ≠ a) (v : Word) :
    (s.popInto a v).reg SP = s.reg SP + 4 := by
  rw [popInto_reg, if_pos rfl, if_neg h]

theorem exec_movesSp {i : Instr} {s t : State} (hdest : i.destination ≠ some (regField SP))
    (hexec : exec i s = .next t) : MovesSp s t := by
  by_cases himpl : SP ∈ implicitWrites i
  case neg => exact .inl (exec_keepsReg s hdest himpl t hexec)
  cases i with
  | call imm =>
    rw [exec_call] at hexec
    exact movesSp_of_withStore hexec fun m hk => by cases hk; simp
  | ret =>
    by_cases hsp : s.reg SP = s.spInit
    · rw [exec_ret_empty s hsp] at hexec
      cases hexec
      exact .inl rfl
    · rw [exec_ret_pop s hsp] at hexec
      exact movesSp_of_withLoad hexec fun v hk => by cases hk; simp
  | push r1 =>
    rw [exec_push] at hexec
    obtain ⟨a, -, hk⟩ | ⟨-, rfl⟩ := withReg_next hexec
    · exact movesSp_of_withStore hk fun m hk => by cases hk; simp
    · exact .inl rfl
  | pop r1 =>
    rw [exec_pop] at hexec
    obtain ⟨a, rfl, hk⟩ | ⟨-, rfl⟩ := withReg_next hexec
    · refine movesSp_of_withLoad hk fun v hk => ?_
      cases hk
      exact popInto_reg_sp (ne_of_field_ne rfl hdest) v
    · exact .inl rfl
  | _ => simp [implicitWrites, sp_ne_flags] at himpl

/-- `v` is a multiple of 4 in [0, size]: R123 for one value of SP. -/
def DisciplinedSp (size : Nat) (v : Word) : Prop := v.toNat % 4 = 0 ∧ v.toNat ≤ size

theorem disciplinedSp_sub_four {size : Nat} {v : Word} (h : DisciplinedSp size v)
    (hlo : 0 ≤ (v - 4).toInt) (hhi : (v - 4).toInt ≤ (size : Int) - 4) :
    DisciplinedSp size (v - 4) := by
  obtain ⟨hmod, -⟩ := h
  have hsub : (v - 4).toNat = (2 ^ 32 - 4 + v.toNat) % 2 ^ 32 := BitVec.toNat_sub v 4
  rw [BitVec.toInt_eq_toNat_cond] at hlo hhi
  constructor
  · omega
  · split at hhi <;> omega

theorem disciplinedSp_add_four {size : Nat} {v : Word} (h : DisciplinedSp size v)
    (hsize : size ≤ 2 ^ 30) (hlo : 0 ≤ v.toInt) (hhi : v.toInt ≤ (size : Int) - 4) :
    DisciplinedSp size (v + 4) := by
  obtain ⟨hmod, -⟩ := h
  have hadd : (v + 4).toNat = (v.toNat + 4) % 2 ^ 32 := BitVec.toNat_add v 4
  rw [BitVec.toInt_eq_toNat_cond] at hlo hhi
  constructor
  · omega
  · split at hhi <;> omega

theorem exec_spDisciplined {i : Instr} {s t : State} (hsize : s.cfg.stackSizeOk)
    (hs : s.spDisciplined) (hdest : i.destination ≠ some (regField SP))
    (hexec : exec i s = .next t) : t.spDisciplined := by
  obtain ⟨hcfg, -⟩ := exec_keepsFixed hexec
  obtain ⟨-, -, hle⟩ := hsize
  show DisciplinedSp t.cfg.stackSize (t.reg SP)
  rw [hcfg]
  obtain hsp | ⟨⟨hlo, hhi⟩, hsp⟩ | ⟨⟨hlo, hhi⟩, hsp⟩ := exec_movesSp hdest hexec <;> rw [hsp]
  · exact hs
  · exact disciplinedSp_sub_four hs hlo hhi
  · exact disciplinedSp_add_four hs hle hlo hhi

/-- Settles O27: the two checks of the step leave SP, and `exec_spDisciplined`. -/
theorem stackPointerDiscipline : Obligations.StackPointerDiscipline := by
  intro s t hsize hs hdest hstep
  obtain ⟨-, ⟨-, -, rfl⟩ | ⟨-, -, -, rfl⟩ | ⟨-, -, i, hcur, hexec⟩⟩ := step_cases hstep
  · exact hs
  · exact hs
  · exact exec_spDisciplined hsize hs (hdest i hcur) hexec

/-! ## The flags over a step (R19, R24) -/

/-- CMP leaves F, where it faults, or gives it the flags of a comparison (R109). -/
theorem exec_cmp_flags {r1 r2 : RegField} {s t : State} (hexec : exec (.cmp r1 r2) s = .next t) :
    t.reg F = s.reg F ∨ ∃ a b, t.reg F = cmpFlags a b := by
  rw [exec_cmp] at hexec
  obtain ⟨b, -, hk⟩ | ⟨-, rfl⟩ := withReg_next hexec
  · obtain ⟨a, -, hk⟩ | ⟨-, rfl⟩ := withReg_next hk
    · cases hk
      exact .inr ⟨s.reg a, s.reg b, by simp⟩
    · exact .inl rfl
  · exact .inl rfl

/-- Only CMP writes F implicitly (R19). -/
theorem flags_not_mem_implicitWrites {i : Instr} (h : ∀ r1 r2, i ≠ .cmp r1 r2) :
    F ∉ implicitWrites i := by
  cases i with
  | cmp r1 r2 => exact absurd rfl (h r1 r2)
  | _ => simp [implicitWrites, sp_ne_flags.symm]

theorem exec_keepsFlags {i : Instr} {s t : State} (hdest : i.destination ≠ some (regField F))
    (hcmp : ∀ r1 r2, i ≠ .cmp r1 r2) (hexec : exec i s = .next t) : t.reg F = s.reg F :=
  exec_keepsReg s hdest (flags_not_mem_implicitWrites hcmp) t hexec

theorem exec_fourFlagBits {i : Instr} {s t : State} (hdest : i.destination ≠ some (regField F))
    (hexec : exec i s = .next t) (hs : fourFlagBits (s.reg F)) : fourFlagBits (t.reg F) := by
  by_cases hcmp : ∃ r1 r2, i = .cmp r1 r2
  · obtain ⟨r1, r2, rfl⟩ := hcmp
    obtain hsame | ⟨a, b, hflags⟩ := exec_cmp_flags hexec
    · rwa [hsame]
    · rw [hflags]
      exact fourFlagBits_cmpFlags a b
  · have hcmp : ∀ r1 r2, i ≠ .cmp r1 r2 := fun r1 r2 hi => hcmp ⟨r1, r2, hi⟩
    rwa [exec_keepsFlags hdest hcmp hexec]

/-- Settles O28: CMP writes four bits, and every other instruction leaves F. -/
theorem flagsDiscipline : Obligations.FlagsDiscipline := by
  intro s t hdest hstep
  obtain ⟨-, ⟨-, -, rfl⟩ | ⟨-, -, -, rfl⟩ | ⟨-, -, i, hcur, hexec⟩⟩ := step_cases hstep
  · exact ⟨id, fun _ => rfl⟩
  · exact ⟨id, fun _ => rfl⟩
  · refine ⟨exec_fourFlagBits (hdest i hcur) hexec, fun hcmp => ?_⟩
    exact exec_keepsFlags (hdest i hcur) (fun r1 r2 hi => hcmp r1 r2 (hi ▸ hcur)) hexec

end Sys2Proof
end

section
/-! PROOFS. The frames that the instructions' statements share, one lemma per shape of next
state. -/

namespace Sys2Proof

open Machine

/-- A next state of other registers and pc only. -/
theorem onlyRegs_of_keepsRegs {ds : List RegIx} {s : State} {regs : Vector Word 17} {pc : Word}
    (h : KeepsRegs ds s { s with regs := regs, pc := pc }) :
    OnlyRegs ds s { s with regs := regs, pc := pc } :=
  ⟨h, fun _ => rfl, ⟨rfl, rfl⟩, ⟨rfl, rfl⟩, rfl⟩

theorem keepsRegs_setReg (s : State) (a : RegIx) (v : Word) : KeepsRegs [a] s (s.setReg a v) :=
  fun _ hj => reg_setReg_ne s a v (List.ne_of_not_mem_cons hj)

theorem onlyRegs_setReg_advance (s : State) (a : RegIx) (v : Word) :
    OnlyRegs [a] s (s.setReg a v).advance :=
  onlyRegs_of_keepsRegs (keepsRegs_setReg s a v)

theorem onlyRegs_setReg_setPc (s : State) (a : RegIx) (v p : Word) :
    OnlyRegs [a] s ((s.setReg a v).setPc p) :=
  onlyRegs_of_keepsRegs (keepsRegs_setReg s a v)

theorem onlyRegs_popInto_advance (s : State) (a : RegIx) (v : Word) :
    OnlyRegs [a, SP] s (s.popInto a v).advance := by
  refine onlyRegs_of_keepsRegs (pc := s.pc + 4) fun j hj => ?_
  obtain ⟨hja, hjsp⟩ : j ≠ a ∧ j ≠ SP := by simpa using hj
  exact (popInto_reg s a v j).trans (by rw [if_neg hjsp, if_neg hja])

/-- A next state of a stored word, other registers and pc only (R45). -/
theorem onlyRegsAndWord_of_store32 {ds : List RegIx} {s : State} {a : Int} {v : Word}
    {regs : Vector Word 17} {pc : Word} (hwf : s.mem.wf) (ha : s.inBounds a)
    (h : KeepsRegs ds s { s with regs := regs, pc := pc }) :
    OnlyRegsAndWord ds a v s
      { s with mem := s.mem.store32 a.toNat v, regs := regs, pc := pc } :=
  ⟨h, fun _ hk => Memory.read_store32_byte hwf a.toNat v hk,
    keepsMemOutside_of_store32 hwf ha rfl, ⟨rfl, rfl⟩, ⟨rfl, rfl⟩, rfl⟩

end Sys2Proof
end

section
/-! PROOFS. The ALU and move instructions (41_alu.md R97 to R101, 42_move.md R104 to R107). -/

namespace Sys2Proof

open Machine

/-! ## Results as exact integers reduced modulo 2^32 (R97 to R100) -/

theorem sub_sextImm_eq_ofInt (v : Word) (imm : BitVec 16) :
    v - sextImm imm = BitVec.ofInt 32 (v.toInt - imm.toInt) := by
  rw [ofInt_sub, ← sextImm_toInt, BitVec.ofInt_toInt, BitVec.ofInt_toInt]

theorem add_eq_ofInt (v u : Word) : v + u = BitVec.ofInt 32 (v.toInt + u.toInt) := by
  rw [BitVec.ofInt_add, BitVec.ofInt_toInt, BitVec.ofInt_toInt]

theorem mul_eq_ofInt (v u : Word) : v * u = BitVec.ofInt 32 (v.toInt * u.toInt) := by
  rw [BitVec.ofInt_mul, BitVec.ofInt_toInt, BitVec.ofInt_toInt]

/-- Settles O37: one register write of the difference. -/
theorem subiSubtractsImmediate : Obligations.SubiSubtractsImmediate := by
  refine ⟨decodesTo_instrOf .subi, fun s a imm => ?_, fun _ => checksField_of_usedRegs fun _ => rfl⟩
  refine ⟨_, by rw [exec_subi, withReg_regField], ?_, rfl, onlyRegs_setReg_advance s a _⟩
  rw [advance_reg, reg_setReg_same, sub_sextImm_eq_ofInt]

/-- Settles O38: one register write of the sum, into the second field. -/
theorem addAddsIntoSecond : Obligations.AddAddsIntoSecond := by
  refine ⟨decodesTo_instrOf .add, fun s a b => ?_, checksFields_of_usedRegs fun _ _ => rfl⟩
  refine ⟨_, by rw [exec_add, withReg_regField, withReg_regField], ?_, rfl,
    onlyRegs_setReg_advance s b _⟩
  rw [advance_reg, reg_setReg_same, add_eq_ofInt]

/-- Settles O39: one register write of the sum with the immediate. -/
theorem addiAddsImmediate : Obligations.AddiAddsImmediate := by
  refine ⟨decodesTo_instrOf .addi, fun s a imm => ?_, fun _ => checksField_of_usedRegs fun _ => rfl⟩
  refine ⟨_, by rw [exec_addi, withReg_regField], ?_, rfl, onlyRegs_setReg_advance s a _⟩
  rw [advance_reg, reg_setReg_same, add_eq_ofInt, sextImm_toInt]

/-- Settles O40: one register write of the product, whose low word has both readings. -/
theorem mulKeepsLowWord : Obligations.MulKeepsLowWord := by
  refine ⟨decodesTo_instrOf .mul, fun s a b => ?_, checksFields_of_usedRegs fun _ _ => rfl⟩
  refine ⟨_, by rw [exec_mul, withReg_regField, withReg_regField], ?signed, ?unsigned, rfl,
    onlyRegs_setReg_advance s b _⟩
  case signed => rw [advance_reg, reg_setReg_same, mul_eq_ofInt]
  case unsigned => rw [advance_reg, reg_setReg_same, BitVec.toNat_mul]

/-! ## The shift (R101) -/

theorem shiftRightOne_toNat (v : Word) : (shiftRightOne v).toNat = v.toNat / 2 := by
  have := v.isLt
  have hbits : (v.extractLsb' 1 31).toNat = v.toNat / 2 := by
    rw [BitVec.extractLsb'_toNat, Nat.shiftRight_eq_div_pow]
    omega
  rw [shiftRightOne, BitVec.toNat_append, hbits]
  simp

/-- Bit `i` of the shifted word is bit `i + 1` of the word, and bit 31 is 0. -/
theorem getLsbD_shiftRightOne (v : Word) (i : Nat) :
    (shiftRightOne v).getLsbD i = (decide (i < 31) && v.getLsbD (1 + i)) := by
  rw [shiftRightOne, BitVec.getLsbD_append, BitVec.getLsbD_extractLsb']
  by_cases hi : i < 31
  · simp [hi]
  · simp [hi]

theorem getLsbD_signMask {i : Nat} (hi : i < 32) :
    (0x7fffffff#32).getLsbD i = decide (i < 31) := by
  interval_cases i <;> rfl

theorem shiftRightOne_eq_ushiftRight (v : Word) :
    shiftRightOne v = (v >>> 1) &&& 0x7fffffff#32 := by
  apply BitVec.eq_of_getLsbD_eq
  intro i hi
  rw [getLsbD_shiftRightOne, BitVec.getLsbD_and, BitVec.getLsbD_ushiftRight, getLsbD_signMask hi,
    Bool.and_comm]

theorem shiftRightOne_eq_sshiftRight (v : Word) :
    shiftRightOne v = (v.sshiftRight 1) &&& 0x7fffffff#32 := by
  apply BitVec.eq_of_getLsbD_eq
  intro i hi
  rw [getLsbD_shiftRightOne, BitVec.getLsbD_and, BitVec.getLsbD_sshiftRight, getLsbD_signMask hi]
  by_cases h31 : i < 31
  · simp [h31, show ¬ 32 ≤ i by omega, show 1 + i < 32 by omega]
  · simp [h31]

/-- Settles O41: one register write of the shifted word, under the three readings. -/
theorem shrHalves : Obligations.ShrHalves := by
  refine ⟨decodesTo_instrOf .shr, fun s a => ?_, checksField_of_usedRegs fun _ => rfl⟩
  refine ⟨_, by rw [exec_shr, withReg_regField], ?half, ?logical, ?arithmetic, rfl,
    onlyRegs_setReg_advance s a _⟩ <;> rw [advance_reg, reg_setReg_same]
  case half => exact shiftRightOne_toNat _
  case logical => exact shiftRightOne_eq_ushiftRight _
  case arithmetic => exact shiftRightOne_eq_sshiftRight _

/-! ## Moves (R104 to R107) -/

/-- Settles O42: one register write of the first register's word. -/
theorem movCopiesFirstIntoSecond : Obligations.MovCopiesFirstIntoSecond := by
  refine ⟨decodesTo_instrOf .mov, fun s a b => ?_, checksFields_of_usedRegs fun _ _ => rfl⟩
  refine ⟨_, by rw [exec_mov, withReg_regField, withReg_regField], ?_, rfl,
    onlyRegs_setReg_advance s b _⟩
  rw [advance_reg, reg_setReg_same]

/-- Settles O43: one register write of the loaded word. -/
theorem loadReadsSlot : Obligations.LoadReadsSlot := by
  refine ⟨decodesTo_instrOf .load, fun s imm => ?address, fun s b imm hb => ?loads,
    fun _ => checksField_of_usedRegs fun _ => rfl⟩
  case address => rw [State.slotAddr, sextImm_toInt]
  case loads =>
    refine ⟨_, exec_load_ok b imm s hb, fun k hk => ?_, rfl, onlyRegs_setReg_advance s b _⟩
    rw [advance_reg, reg_setReg_same, Memory.load32_byte _ _ hk]

/-- Settles O44: one store of the register's word. -/
theorem storeWritesSlot : Obligations.StoreWritesSlot :=
  ⟨decodesTo_instrOf .store, fun s a imm hwf hb => ⟨_, exec_store_ok a imm s hb, rfl,
    onlyRegsAndWord_of_store32 hwf hb fun _ _ => rfl⟩,
    fun _ => checksField_of_usedRegs fun _ => rfl⟩

/-- Settles O45: one register write of the sign-extended immediate. -/
theorem moviLoadsSignedImmediate : Obligations.MoviLoadsSignedImmediate := by
  refine ⟨decodesTo_instrOf .movi, fun s a imm => ?_, fun _ => checksField_of_usedRegs fun _ => rfl⟩
  refine ⟨_, by rw [exec_movi, withReg_regField], ?_, rfl, onlyRegs_setReg_advance s a _⟩
  rw [advance_reg, reg_setReg_same, sextImm_toInt]

/-- The state after a word is stored in the slot of `imm`, before pc advances. -/
def storedState (s : State) (imm : BitVec 16) (v : Word) : State :=
  { s with mem := s.mem.store32 (s.slotAddr imm).toNat v }

/-- A LOAD after a STORE finds the slot where it was and the word in it (R54). -/
theorem exec_load_storedState {s : State} {imm : BitVec 16} (hwf : s.mem.wf)
    (hb : s.inBounds (s.slotAddr imm)) (b : RegIx) (v : Word) :
    exec (.load (regField b) imm) (storedState s imm v).advance =
      .next ((storedState s imm v).advance.setReg b v).advance := by
  have hread : (storedState s imm v).mem.load32 (s.slotAddr imm).toNat = v :=
    Memory.load32_store32 hwf _ v
  have hload := exec_load_ok b imm (storedState s imm v).advance hb
  rwa [advance_mem, show (storedState s imm v).advance.slotAddr imm = s.slotAddr imm from rfl,
    hread] at hload

/-- Settles O32: the LOAD reads the stored word back and writes one register. -/
theorem storeThenLoad : Obligations.StoreThenLoad := by
  intro s a b imm hwf hb
  refine ⟨_, _, exec_store_ok a imm s hb, exec_load_storedState hwf hb b (s.reg a),
    reg_setReg_same _ b _, ?_⟩
  exact onlyRegsAndWord_of_store32 hwf hb (keepsRegs_setReg s b _)

end Sys2Proof
end

section
/-! PROOFS. Compare: the flags it writes and what the branches decide after it
(43_compare_branch.md R109, R116; 10_state.md R22, R23). -/

namespace Sys2Proof

open Machine

theorem exec_cmp_ok (ra rb : RegIx) (s : State) : exec (.cmp (regField ra) (regField rb)) s =
    .next (s.setReg F (cmpFlags (s.reg rb) (s.reg ra))).advance := by
  rw [exec_cmp, withReg_regField, withReg_regField]

/-! ## The flags (R22, R109) -/

theorem cmpFlags_carry (a b : Word) : (cmpFlags a b).getLsbD 0 = true ↔ a.toNat < b.toNat := by
  rw [show (cmpFlags a b).getLsbD 0 = cmpCF a b from flagCF_packFlags _ _ _ _, cmpCF,
    decide_eq_true_iff]

theorem cmpFlags_zero (a b : Word) : (cmpFlags a b).getLsbD 6 = true ↔ a - b = 0 := by
  rw [show (cmpFlags a b).getLsbD 6 = cmpZF a b from flagZF_packFlags _ _ _ _, cmpZF, beq_iff_eq]

theorem cmpFlags_sign (a b : Word) : (cmpFlags a b).getLsbD 7 = (a - b).getLsbD 31 :=
  flagSF_packFlags _ _ _ _

theorem cmpFlags_overflow (a b : Word) : (cmpFlags a b).getLsbD 11 = true ↔
    a.toInt - b.toInt < -2 ^ 31 ∨ 2 ^ 31 - 1 < a.toInt - b.toInt := by
  rw [show (cmpFlags a b).getLsbD 11 = cmpOF a b from flagOF_packFlags _ _ _ _, cmpOF,
    Bool.or_eq_true_iff, decide_eq_true_iff, decide_eq_true_iff]

/-- Settles O46: CMP writes F once, with the four flags of the comparison. -/
theorem cmpWritesFlags : Obligations.CmpWritesFlags := by
  refine ⟨decodesTo_instrOf .cmp, fun s ra rb => ?_, checksFields_of_usedRegs fun _ _ => rfl⟩
  refine ⟨_, exec_cmp_ok ra rb s, ?_⟩
  rw [advance_reg, reg_setReg_same]
  exact ⟨cmpFlags_carry _ _, cmpFlags_zero _ _, cmpFlags_sign _ _, cmpFlags_overflow _ _,
    fourFlagBits_cmpFlags _ _, rfl, onlyRegs_setReg_advance s F _⟩

/-! ## What the conditions decide after a comparison (R116) -/

theorem condE_cmpFlags (a b : Word) : condE (cmpFlags a b) = decide (a = b) :=
  (flagZF_packFlags _ _ _ _).trans (cmpZF_iff a b)

theorem condL_cmpFlags (a b : Word) : condL (cmpFlags a b) = decide (a.toInt < b.toInt) := by
  rw [condL, cmpFlags, flagSF_packFlags, flagOF_packFlags, cmpSF_xor_cmpOF]

theorem condLE_cmpFlags (a b : Word) : condLE (cmpFlags a b) = decide (a.toInt ≤ b.toInt) := by
  rw [show condLE (cmpFlags a b) = (condL (cmpFlags a b) || condE (cmpFlags a b)) from rfl,
    condL_cmpFlags, condE_cmpFlags, ← Bool.decide_or, decide_eq_decide, ← BitVec.toInt_inj,
    Int.le_iff_lt_or_eq]

theorem condGE_cmpFlags (a b : Word) : condGE (cmpFlags a b) = decide (b.toInt ≤ a.toInt) := by
  rw [condGE_eq_not_condL, condL_cmpFlags, ← decide_not, decide_eq_decide, Int.not_lt]

theorem condBE_cmpFlags (a b : Word) : condBE (cmpFlags a b) = decide (a.toNat ≤ b.toNat) := by
  rw [condBE, cmpFlags, flagZF_packFlags, flagCF_packFlags, cmpZF_iff, cmpCF, ← Bool.decide_or,
    decide_eq_decide, ← BitVec.toNat_inj, Nat.le_iff_lt_or_eq, or_comm]

/-- A conditional branch goes to its target exactly where its condition decides so (R91). -/
theorem branchIf_decides {cond : Word → Bool} {p : Prop} [Decidable p] {t : State}
    (h : cond (t.reg F) = decide p) (imm : BitVec 16) :
    ∃ u, branchIf cond imm t = .next u ∧ u.pc = if p then t.pc + sextImm imm + 4 else t.pc + 4 := by
  by_cases hp : p
  · exact ⟨_, branchIf_taken (by simpa [hp] using h) imm, by rw [if_pos hp]; rfl⟩
  · exact ⟨_, branchIf_notTaken (by simpa [hp] using h) imm, by rw [if_neg hp]; rfl⟩

/-- Settles O35: each branch decides by its condition of the flags that CMP left in F. -/
theorem branchesAfterCompare : Obligations.BranchesAfterCompare := by
  intro s t ra rb imm hcmp
  have hF : t.reg F = cmpFlags (s.reg rb) (s.reg ra) := by
    rw [exec_cmp_ok] at hcmp
    cases hcmp
    rw [advance_reg, reg_setReg_same]
  obtain ⟨tE, hE, pE⟩ := branchIf_decides (hF ▸ condE_cmpFlags _ _) imm
  obtain ⟨tL, hL, pL⟩ := branchIf_decides (hF ▸ condL_cmpFlags _ _) imm
  obtain ⟨tLE, hLE, pLE⟩ := branchIf_decides (hF ▸ condLE_cmpFlags _ _) imm
  obtain ⟨tGE, hGE, pGE⟩ := branchIf_decides (hF ▸ condGE_cmpFlags _ _) imm
  obtain ⟨tBE, hBE, pBE⟩ := branchIf_decides (hF ▸ condBE_cmpFlags _ _) imm
  exact ⟨tE, tL, tLE, tGE, tBE, hE, hL, hLE, hGE, hBE, pE, pL, pLE, pGE, pBE⟩

/-! ## A branch reads four bits of F (R23) -/

/-- Branches that decide alike go to the same pc. -/
theorem branchIf_pc_congr {cond : Word → Bool} {f g : Word} (h : cond f = cond g) (s : State)
    (imm : BitVec 16) : ∃ t u, branchIf cond imm (s.setReg F f) = .next t ∧
      branchIf cond imm (s.setReg F g) = .next u ∧ t.pc = u.pc := by
  refine ⟨_, _, rfl, rfl, ?_⟩
  rw [reg_setReg_same, reg_setReg_same, h]
  split <;> rfl

/-- Settles O36: each of the five conditions is a function of the four bits. -/
theorem branchesReadFourBits : Obligations.BranchesReadFourBits := by
  intro s f g imm h0 h6 h7 h11 i hi
  have hCF : flagCF f = flagCF g := h0
  have hZF : flagZF f = flagZF g := h6
  have hSF : flagSF f = flagSF g := h7
  have hOF : flagOF f = flagOF g := h11
  simp only [List.mem_cons, List.not_mem_nil, or_false] at hi
  obtain rfl | rfl | rfl | rfl | rfl := hi <;> refine branchIf_pc_congr ?_ s imm
  · rw [condE, condE, hZF]
  · rw [condL, condL, hSF, hOF]
  · rw [condLE, condLE, hSF, hOF, hZF]
  · rw [condGE, condGE, hSF, hOF]
  · rw [condBE, condBE, hZF, hCF]

end Sys2Proof
end

section
/-! PROOFS. Call, return and stack (44_call_stack.md R119 to R122). -/

namespace Sys2Proof

open Machine

/-! ## One instruction -/

/-- Settles O53: one store of the return address, one write of SP, and the target. -/
theorem callPushesReturnAddress : Obligations.CallPushesReturnAddress := by
  refine ⟨decodesTo_instrOf .call, fun _ => rfl, fun s imm hwf hb => ?_⟩
  refine ⟨_, exec_call_ok imm s hb, reg_setReg_same _ SP _, target_eq s imm, ?_⟩
  exact onlyRegsAndWord_of_store32 hwf hb (keepsRegs_setReg s SP _)

/-- Settles O54: the halt on the empty stack, and elsewhere the load of pc and one write of SP. -/
theorem retHaltsOrPops : Obligations.RetHaltsOrPops := by
  refine ⟨decodesTo_instrOf .ret, fun _ => rfl, fun s hsp => ?halts, fun s hsp hb => ?pops⟩
  case halts => exact ⟨_, exec_ret_empty s hsp, rfl, onlyRun_halt s _⟩
  case pops =>
    exact ⟨_, exec_ret_ok s hsp hb, fun k hk => Memory.load32_byte _ _ hk,
      reg_setReg_same s SP _, onlyRegs_setReg_setPc s SP _ _⟩

/-- Settles O55: one store below SP and one write of SP. -/
theorem pushStoresBelowSp : Obligations.PushStoresBelowSp := by
  refine ⟨decodesTo_instrOf .push, fun s a hwf hb => ?_, checksField_of_usedRegs fun _ => rfl⟩
  refine ⟨_, exec_push_ok a s hb, reg_setReg_same _ SP _, rfl, ?_⟩
  exact onlyRegsAndWord_of_store32 hwf hb (keepsRegs_setReg s SP _)

theorem popInto_reg_other {s : State} {a : RegIx} (h : a ≠ SP) (v : Word) :
    (s.popInto a v).reg a = v := by
  rw [popInto_reg, if_neg h, if_pos rfl]

/-- POP r6 adds 4 to the popped word (D18). -/
theorem popInto_sp_reg (s : State) (v : Word) : (s.popInto SP v).reg SP = v + 4 := by
  rw [popInto_reg, if_pos rfl, if_pos rfl]

/-- Settles O56: `popInto` of the word at SP. -/
theorem popLoadsAboveSp : Obligations.PopLoadsAboveSp := by
  refine ⟨decodesTo_instrOf .pop, fun s a hb => ?_, checksField_of_usedRegs fun _ => rfl⟩
  refine ⟨_, _, exec_pop_ok a s hb, fun k hk => Memory.load32_byte _ _ hk, fun ha => ?other,
    fun ha => ?sp, rfl, onlyRegs_popInto_advance s a _⟩
  case other => exact ⟨popInto_reg_other ha _, popInto_reg_sp ha.symm _⟩
  case sp =>
    subst ha
    exact popInto_sp_reg s _

/-! ## Push and pop, call and return -/

/-- The state after `v` is pushed, before pc changes: SP is decremented and `v` stands at it. -/
def pushedState (s : State) (v : Word) : State :=
  State.setReg { s with mem := s.mem.store32 s.pushAddr.toNat v } SP s.pushedSp

@[simp] theorem pushedState_reg_sp (s : State) (v : Word) : (pushedState s v).reg SP = s.pushedSp :=
  reg_setReg_same _ SP _

theorem pushedState_reg_ne (s : State) (v : Word) {j : RegIx} (h : j ≠ SP) :
    (pushedState s v).reg j = s.reg j :=
  reg_setReg_ne _ SP _ h

/-- The top of the stack is the word just pushed. -/
theorem pushedState_topAddr (s : State) (v : Word) : (pushedState s v).topAddr = s.pushAddr := by
  rw [State.topAddr, pushedState_reg_sp, State.pushAddr]

theorem load32_pushedState {s : State} (hwf : s.mem.wf) (v : Word) :
    (pushedState s v).mem.load32 s.pushAddr.toNat = v :=
  Memory.load32_store32 hwf _ v

theorem pushedSp_add_four (s : State) : s.pushedSp + 4 = s.reg SP := BitVec.sub_add_cancel _ 4

/-- POP after a push takes the pushed word. -/
theorem exec_pop_pushedState {s : State} (hwf : s.mem.wf) (hb : s.inBounds s.pushAddr)
    (b : RegIx) (v : Word) : exec (.pop (regField b)) (pushedState s v).advance =
      .next ((pushedState s v).advance.popInto b v).advance := by
  have htop : (pushedState s v).advance.topAddr = s.pushAddr := pushedState_topAddr s v
  have hpop := exec_pop_ok b (pushedState s v).advance (htop ▸ hb)
  rwa [htop, advance_mem, load32_pushedState hwf] at hpop

/-- Settles O33: POP undoes the decrement and writes the pushed word to its register. -/
theorem pushThenPop : Obligations.PushThenPop := by
  intro s a b ha hb hwf hin
  have hpush := exec_push_ok a s hin
  rw [if_neg ha] at hpush
  refine ⟨_, _, hpush, exec_pop_pushedState hwf hin b (s.reg a), popInto_reg_other hb _, ?sp,
    fun j hj => ?others⟩
  case sp =>
    rw [advance_reg, popInto_reg_sp hb.symm, advance_reg, pushedState_reg_sp, pushedSp_add_four]
  case others =>
    have hjb : j ≠ b := List.ne_of_not_mem_cons hj
    rw [advance_reg, popInto_reg, if_neg hb.symm, if_neg hjb, advance_reg, advance_reg,
      pushedState_reg_sp, pushedSp_add_four]
    split
    · next hsp => rw [hsp]
    · next hsp => exact pushedState_reg_ne s _ hsp

/-- A pushed SP lies below SP_INIT, so that a RET after a CALL does not halt. -/
theorem pushedSp_ne_spInit {s : State} (hsize : s.cfg.stackSizeOk) (hb : s.inBounds s.pushAddr) :
    s.pushedSp ≠ s.spInit := by
  intro heq
  have hinit : s.spInit.toNat = s.cfg.stackSize := toNat_ofNat_stackSize hsize
  obtain ⟨-, hhi⟩ := hb
  obtain ⟨-, -, hle⟩ := hsize
  rw [State.pushAddr, heq, BitVec.toInt_eq_toNat_of_lt (by omega), hinit] at hhi
  omega

/-- RET after a push, from any pc, goes to the pushed word. -/
theorem exec_ret_pushedState {s : State} (hsize : s.cfg.stackSizeOk) (hwf : s.mem.wf)
    (hb : s.inBounds s.pushAddr) (v p : Word) : exec .ret ((pushedState s v).setPc p) =
      .next ((((pushedState s v).setPc p).setReg SP (s.reg SP)).setPc v) := by
  have htop : ((pushedState s v).setPc p).topAddr = s.pushAddr := pushedState_topAddr s v
  have hsp : ((pushedState s v).setPc p).reg SP = s.pushedSp := pushedState_reg_sp s v
  have hne : ((pushedState s v).setPc p).reg SP ≠ ((pushedState s v).setPc p).spInit :=
    hsp ▸ pushedSp_ne_spInit hsize hb
  have hret := exec_ret_ok _ hne (htop ▸ hb)
  rwa [htop, setPc_mem, load32_pushedState hwf, hsp, pushedSp_add_four] at hret

/-- Settles O34: RET takes the return address that CALL pushed and puts SP back. -/
theorem callThenReturn : Obligations.CallThenReturn := by
  intro s imm p hsize hwf hb
  refine ⟨_, _, exec_call_ok imm s hb, target_eq s imm,
    exec_ret_pushedState hsize hwf hb (s.pc + 4) p, rfl, fun j _ => ?_, rfl⟩
  rw [setPc_reg, reg_setReg, setPc_reg]
  split
  · next hsp => rw [hsp]
  · next hsp => exact pushedState_reg_ne s _ hsp

end Sys2Proof
end

section
/-! PROOFS. The I/O instructions (45_io_and_nop.md R128, R130). -/

namespace Sys2Proof

open Machine

/-- Settles O57: one event at the end of the stream. -/
theorem printEmitsRegister : Obligations.PrintEmitsRegister :=
  ⟨decodesTo_instrOf .print, fun s a => ⟨_, exec_print_ok a s, rfl, rfl, rfl, fun _ _ => rfl,
    fun _ => rfl, ⟨rfl, rfl⟩, rfl⟩, checksField_of_usedRegs fun _ => rfl⟩

/-- Settles O58: with a value one register write and the rest of the queue; without, no change. -/
theorem readTakesOldestInput : Obligations.ReadTakesOldestInput := by
  refine ⟨decodesTo_instrOf .read, fun s a v rest hin => ?takes, fun s a => exec_read_waits a s,
    checksField_of_usedRegs fun _ => rfl⟩
  exact ⟨_, exec_read_ok a s hin, reg_setReg_same _ a v, rfl, rfl, rfl,
    fun _ hj => reg_setReg_ne _ a v (List.ne_of_not_mem_cons hj), fun _ => rfl, ⟨rfl, rfl⟩, rfl⟩

end Sys2Proof
end
